-- ==== Sys2Proof/Word.lean ====
section
/-! DEFINITION. The words of the Keccak-p[1600] engine: bytes, 64-bit lanes, the array of 25 lanes and the
32-bit command word (00_scope.md R6, R9; 10_state.md R20; 30_encoding.md R60). -/

namespace Sys2Proof

/-- One byte of a buffer (R27, R28). -/
abbrev Byte := BitVec 8

/-- One lane, an unsigned 64-bit value whose bit 0 is the least significant (R9, R20). -/
abbrev Lane := BitVec 64

/-- A command word, the value of one 4-byte write to CMD (R60). -/
abbrev CmdWord := BitVec 32

/-- The lane array `L[0..24]`, 1600 bits in all (R20). -/
abbrev Lanes := Vector Lane 25

/-- The lane array with every lane 0 (R35). -/
def zeroLanes : Lanes := Vector.replicate 25 0

end Sys2Proof
end

