-- ==== Sys2Proof/Syntax.lean ====
section
/-! DEFINITION. The six commands of the engine, one constructor per row of spec/opcode_table.json
(30_encoding.md R61). -/

namespace Sys2Proof

/-- A decoded command (R61). An operand is the unsigned ARG field, a count (R62); whether it is in the command's
legal range is checked when the command executes (R64, R66). -/
inductive Instr where
  /-- INIT nr: zero the lanes and bind the round count (R81). -/
  | init (nr : Nat)
  /-- ABSORB len: XOR a block of IN_BUF into the lanes and issue a permutation (R82). -/
  | absorb (len : Nat)
  /-- PERMUTE: issue a permutation (R83). -/
  | permute
  /-- EXTRACT len: copy the head of the state's serialisation to OUT_BUF (R85). -/
  | extract (len : Nat)
  /-- WIPE: secure erasure (R86). -/
  | wipe
  /-- CLRERR: clear the error record (R87). -/
  | clrerr
deriving DecidableEq, Repr

end Sys2Proof
end

