-- ==== Sys2Proof/WellFormed.lean ====
section
/-! DEFINITION. Which command terms stand for a command word: the operand fits the 8-bit ARG field (30_encoding.md
R60, R62). An operand that fits the field and is out of the command's range is well formed: such a word decodes and
is rejected when it executes (R64). -/

namespace Sys2Proof

/-- The check: the operand is an unsigned 8-bit value (R60, R62). -/
def Instr.wellFormed : Instr → Bool
  | .init nr => decide (nr < 256)
  | .absorb len => decide (len < 256)
  | .permute => true
  | .extract len => decide (len < 256)
  | .wipe => true
  | .clrerr => true

/-- The command stands for some command word. -/
abbrev Instr.WellFormed (i : Instr) : Prop := i.wellFormed = true

end Sys2Proof
end

