-- ==== Sys2Proof/Decode.lean ====
section
/-! DEFINITION. The command decoder, total on every 32-bit word (30_encoding.md R66), and after it the encoder of the
assembler syntax (R67). -/

namespace Sys2Proof

/-- Why a word is illegal: the four cases of R63. Every one is rejected with code 1 (ILLEGAL_CMD). -/
inductive Illegal where
  /-- R63 (a): OP is 0x0 or in 0x7 to 0xF. -/
  | reservedOp
  /-- R63 (b): RSV0 = w[7:4] is not 0. -/
  | rsv0NotZero
  /-- R63 (c): RSV1 = w[31:16] is not 0. -/
  | rsv1NotZero
  /-- R63 (d): ARG is not 0 and OP is PERMUTE, WIPE or CLRERR. -/
  | argNotZero
deriving DecidableEq, Repr

/-- OP = w[3:0] (R60). -/
def opField (w : CmdWord) : Nat := (w.extractLsb' 0 4).toNat

/-- RSV0 = w[7:4] (R60). -/
def rsv0Field (w : CmdWord) : Nat := (w.extractLsb' 4 4).toNat

/-- ARG = w[15:8], unsigned (R60, R62). -/
def argField (w : CmdWord) : Nat := (w.extractLsb' 8 8).toNat

/-- RSV1 = w[31:16] (R60). -/
def rsv1Field (w : CmdWord) : Nat := (w.extractLsb' 16 16).toNat

/-- A command without an operand: its ARG must be 0 (R63 (d)). -/
def decodeNoArg (i : Instr) (arg : Nat) : Except Illegal Instr :=
  if arg = 0 then .ok i else .error .argNotZero

/-- The decode function of R66. -/
def decode (w : CmdWord) : Except Illegal Instr :=
  if rsv0Field w ≠ 0 then .error .rsv0NotZero
  else if rsv1Field w ≠ 0 then .error .rsv1NotZero
  else
    match opField w with
    | 1 => .ok (.init (argField w))
    | 2 => .ok (.absorb (argField w))
    | 3 => decodeNoArg .permute (argField w)
    | 4 => .ok (.extract (argField w))
    | 5 => decodeNoArg .wipe (argField w)
    | 6 => decodeNoArg .clrerr (argField w)
    | _ => .error .reservedOp

/-- The command an opcode-table word of `nbits` bits decodes to; the bits above `nbits` are 0. A command is one 32-bit
bus value and no sequence of memory bytes (R29, R60), so the word needs no byte order of its own. -/
def decodeTableWord (nbits w : Nat) : Option Instr :=
  (decode (BitVec.ofNat 32 (w % 2 ^ nbits))).toOption

/-- The value of the ARG field that the command carries; 0 where it has no operand (R61, R62). -/
def Instr.arg : Instr → Nat
  | .init nr => nr
  | .absorb len => len
  | .permute => 0
  | .extract len => len
  | .wipe => 0
  | .clrerr => 0

/-- The OP value of a command (R61). -/
def Instr.opcode : Instr → Nat
  | .init _ => 1
  | .absorb _ => 2
  | .permute => 3
  | .extract _ => 4
  | .wipe => 5
  | .clrerr => 6

/-- The command word `(arg << 8) | OP` (R67). -/
def encode (i : Instr) : CmdWord :=
  BitVec.ofNat 32 i.arg <<< 8 ||| BitVec.ofNat 32 i.opcode

end Sys2Proof
end

