-- ==== Sys2Proof/Config.lean ====
section
/-! DEFINITION. The parameters the spec leaves open (00_scope.md R8; 92_eei_decisions.md, "Open parameters,
collected"). Each is an opaque constant: no proof can see its value, so a claim holds whatever it is. The fourth
open parameter, `RC_BASE(nr)`, has the spec's own value 24 - nr and stands as `Machine.rcBase`. -/

namespace Sys2Proof.Config

/-- `LATENCY` (R8, R84): how many host operations the device still performs between the issue of a permutation and
its completion. The arguments are the number of the engine instance and the number of permutations it has issued so far,
so each permutation of each instance has a delay of its own.
Every delay is a natural number, which is the weak fairness of R11 (assumption 1; DESIGN CHOICE). -/
opaque latency : Nat → Nat → Nat

/-- The page number of each instance's window; the platform chooses it (R8, R42). -/
opaque basePage : Nat → Nat

/-- How many engine instances the platform has beyond the first (R8, R150). -/
opaque extraInstances : Nat

/-- `BASE`: the host address of an instance's register window, aligned to 4096 bytes (R8, R42). -/
def base (inst : Nat) : Nat := 4096 * basePage inst

/-- `N_INST`: the number of engine instances on the platform, at least 1 (R8). -/
def nInst : Nat := extraInstances + 1

end Sys2Proof.Config
end

