-- ==== Sys2Proof/Machine/State.lean ====
section
/-! DEFINITION. The state of one engine instance (10_state.md R20 to R35), the host operations it has yet to perform
(20_memory.md R50), and the reasons a step can stop. -/

namespace Sys2Proof.Machine

/-- Direction of a host access (R43). -/
inductive Direction where
  | read
  | write
deriving DecidableEq, Repr

/-- Width of a host access: 1, 2, 4 or 8 bytes (R42). -/
inductive Width where
  | w1
  | w2
  | w4
  | w8
deriving DecidableEq, Repr

/-- The rows of the address map of R43; the reserved rows are one name. -/
inductive Region where
  | inBuf
  | outBuf
  | cmd
  | status
  | reserved
deriving DecidableEq, Repr

/-- The causes of a command error (R141). -/
inductive CmdError where
  /-- The word is illegal under R63. -/
  | illegalCmd
  /-- INIT with nr > 24. -/
  | badRounds
  /-- ABSORB with LEN mod 8 != 0 or LEN > 200. -/
  | badAbsorbLen
  /-- EXTRACT with LEN > 200. -/
  | badExtractLen
  /-- Any CMD write while BUSY = 1. -/
  | cmdWhileBusy
deriving DecidableEq, Repr

/-- One operation of the host program, in the syntax of R67: the accesses `LB`..`LD` and `SB`..`SD` at a window
offset, the pseudo-instructions `WAIT` and `CHECK`, which depend on a value read, and the platform's reset (R160). -/
inductive HostOp where
  /-- `MemRead(off, n)` (R42). -/
  | read (off : BitVec 12) (n : Width)
  /-- `MemWrite(off, n, v)`: only the low 8n bits of v are on the bus (R44). -/
  | write (off : BitVec 12) (n : Width) (v : BitVec 64)
  /-- `WAIT`: read STATUS until BUSY = 0 (R67). -/
  | wait
  /-- `CHECK`: read STATUS and require ERR = 0 (R67). -/
  | check
  /-- The platform's reset signal (R160), which no access overlaps, at a place of its own in the host's sequence
  (assumption 3; DESIGN CHOICE). -/
  | reset
deriving DecidableEq, Repr

/-- The value a permitted read returned to the host, zero-extended to 64 bits (R44, R67). -/
structure ReadReply where
  off : BitVec 12
  width : Width
  value : BitVec 64
deriving DecidableEq, Repr

/-- A byte buffer as (index, byte) cells in canonical form: indices strictly rising, no listed byte equal to what an
unlisted index reads as. -/
abbrev Memory := List Host.Cell

/-- What stops the machine. None is an effect of a command: a rejected command goes on (R142). -/
inductive Fault where
  /-- `BusError(off, n, direction)` (R145): raised by `busRead` and `busWrite` for an access that R43 does not permit.
  Nothing was written and nothing recorded; R167 ends the run there. Safe. -/
  | busError (off : BitVec 12) (n : Width) (dir : Direction)
  /-- The host's `CHECK` found ERR = 1 (R67 requires 0): raised by `perform` for the host program, not by the engine.
  Safe (assumption 8). -/
  | checkFailed (statusValue : BitVec 64)
  /-- Raised by `complete` when ROUNDS holds more than 24, for which no KeccakP value exists (R110; U2 of
  93_implementation_defined.md). No state that keeps R26 reaches it. Safe (assumption 4). -/
  | roundsOutOfRange (rounds : BitVec 5)
deriving DecidableEq, Repr

/-- A command without a meaning in this model. -/
inductive Refusal where
  /-- An arm of `exec` that is not modelled yet, by its mnemonic. Safe. No arm answers so. -/
  | notModelled (mnemonic : String)
deriving DecidableEq, Repr

/-- The whole state. The first eight fields are the engine's (R20 to R35); CMD holds no state and STATUS is a view
(`Machine.status`). The last five are the model's own: the host's side of the window and the open `LATENCY`. -/
structure State where
  /-- `L[0..24]` (R20). -/
  lanes : Lanes
  /-- `ROUNDS`, 5 bits (R26). -/
  rounds : BitVec 5
  /-- `IN_BUF[0..199]`, keyed by index (R27). -/
  inBuf : Memory
  /-- `OUT_BUF[0..199]`, keyed by index (R28). -/
  outBuf : Memory
  /-- `PENDING`, hidden (R33). -/
  pending : Bool
  /-- `STATUS.BUSY` (R31). -/
  busy : Bool
  /-- `STATUS.ERR` (R32). -/
  err : Bool
  /-- `STATUS.ERRCODE`, 4 bits (R32, R141). -/
  errCode : BitVec 4
  /-- Model's own: the host operations the device has yet to perform, in the order it receives them (R50, R57). -/
  queue : List HostOp
  /-- Model's own: the values returned to the host so far, newest first (R167). -/
  replies : List ReadReply
  /-- Model's own: how many host operations come before the pending completion (R8 `LATENCY`). -/
  delay : Nat
  /-- Model's own: how many permutations have been issued, the second argument of the free value
  `Config.latency`. -/
  draws : Nat
  /-- Model's own: the number of this engine on its platform, the first argument of `Config.latency`. Nothing else reads
  it: the hardware has no instance identifier (R150; assumption 10). -/
  inst : Nat
deriving DecidableEq, Repr

/-- The state right after reset (R35, R160): every register at its spec value, no host operation waiting. -/
def State.reset : State where
  lanes := zeroLanes
  rounds := 24
  inBuf := []
  outBuf := []
  pending := false
  busy := false
  err := false
  errCode := 0
  queue := []
  replies := []
  delay := 0
  draws := 0
  inst := 0

end Sys2Proof.Machine
end

