-- ==== Sys2Proof/Machine/Ops.lean ====
section
/-! DEFINITION. The named operations over the buffers, the lanes and the status bits, and the recording of a command
error (60_exceptions.md R142), which is all the exception entry the engine has (R144). -/

namespace Sys2Proof.Machine

/-- What a meaning answers. -/
abbrev Result := Host.Outcome State Fault Refusal

/-! ### Buffers -/

/-- The size of IN_BUF and of OUT_BUF (R27, R28). -/
def bufBytes : Nat := 200

/-- What an unlisted buffer index reads as: both buffers reset to 0 (R35). -/
def Memory.unlisted : Byte := 0

/-- The byte at index `a`. -/
def Memory.read : Memory → Nat → Byte
  | [], _ => Memory.unlisted
  | (b, v) :: rest, a => if a = b then v else Memory.read rest a

/-- Put a cell in front of the cells above it; a byte equal to `unlisted` is not listed. -/
def Memory.cell (a : Nat) (v : Byte) (rest : Memory) : Memory :=
  if v = Memory.unlisted then rest else (a, v) :: rest

/-- Store one byte, keeping the canonical form: storing `unlisted` removes the cell. -/
def Memory.write : Memory → Nat → Byte → Memory
  | [], a, v => Memory.cell a v []
  | (b, u) :: rest, a, v =>
    if a < b then Memory.cell a v ((b, u) :: rest)
    else if a = b then Memory.cell a v rest
    else (b, u) :: Memory.write rest a v

/-- Store bytes at `a`, `a + 1`, ... -/
def Memory.writeBytes : Memory → Nat → List Byte → Memory
  | m, _, [] => m
  | m, a, b :: bs => Memory.writeBytes (m.write a b) (a + 1) bs

/-- The `n` bytes from index `a` on. -/
def Memory.readBytes (m : Memory) (a n : Nat) : List Byte :=
  (List.range n).map fun k => m.read (a + k)

/-- The canonical form from index `lo` on: indices rising and inside the buffer, no byte equal to `unlisted`. -/
def Memory.wfFrom : Nat → Memory → Bool
  | _, [] => true
  | lo, (a, v) :: rest =>
    decide (lo ≤ a) && decide (a < bufBytes) && decide (v ≠ Memory.unlisted) && Memory.wfFrom (a + 1) rest

/-- The buffer is in canonical form. -/
def Memory.wf (m : Memory) : Bool := Memory.wfFrom 0 m

/-! ### Lanes -/

/-- `L[i]`, for 0 <= i <= 24 (R20). No rule reads a lane beyond 24. -/
def laneOf (A : Lanes) (i : Nat) : Lane := A[i]?.getD 0

/-- `A[x, y] = L[x + 5*y]`, with all indices mod 5 (R10, R21; 41_permutation.md, notation). -/
def laneAt (A : Lanes) (x y : Nat) : Lane := laneOf A (x % 5 + 5 * (y % 5))

/-- The lane array whose lane `i` is `f i`. -/
def lanesOf (f : Nat → Lane) : Lanes := Vector.ofFn fun i : Fin 25 => f i

/-! ### Updates of the state -/

/-- Replace the lane array. -/
def State.setLanes (s : State) (A : Lanes) : State := { s with lanes := A }

/-- Write ROUNDS. -/
def State.setRounds (s : State) (nr : BitVec 5) : State := { s with rounds := nr }

/-- Replace IN_BUF. -/
def State.setInBuf (s : State) (m : Memory) : State := { s with inBuf := m }

/-- Replace OUT_BUF. -/
def State.setOutBuf (s : State) (m : Memory) : State := { s with outBuf := m }

/-- Write ERR and ERRCODE together. -/
def State.setErr (s : State) (err : Bool) (code : BitVec 4) : State := { s with err := err, errCode := code }

/-- `PENDING <- 1; BUSY <- 1` (R82, R83), with a fresh free delay until the completion (R84; assumption 1). -/
def State.startPermutation (s : State) : State :=
  { s with pending := true, busy := true, delay := Config.latency s.inst s.draws, draws := s.draws + 1 }

/-- `PENDING <- 0; BUSY <- 0` (R84). -/
def State.endPermutation (s : State) : State := { s with pending := false, busy := false, delay := 0 }

/-- Replace the host operations that wait. -/
def State.setQueue (s : State) (q : List HostOp) : State := { s with queue := q }

/-- Answer the host's read. -/
def State.addReply (s : State) (r : ReadReply) : State := { s with replies := r :: s.replies }

/-- The device takes the next host operation; a pending completion comes one operation nearer. -/
def State.takeOp (s : State) (rest : List HostOp) : State := { s with queue := rest, delay := s.delay - 1 }

/-- The reset event (R160): every piece of engine state at its reset value, a pending permutation abandoned. The host's
side (its operations to come, the values it has read) is not the engine's and stays (assumption 3). -/
def State.resetEngine (s : State) : State :=
  { State.reset with queue := s.queue, replies := s.replies, draws := s.draws, inst := s.inst }

/-! ### Command errors -/

/-- The ERRCODE value of a command error (R141). -/
def errorCode : CmdError → BitVec 4
  | .illegalCmd => 1
  | .badRounds => 2
  | .badAbsorbLen => 3
  | .badExtractLen => 4
  | .cmdWhileBusy => 5

/-- `raise CmdError(code)` (R142): record the first code only; nothing else changes. -/
def cmdError (e : CmdError) (s : State) : State :=
  if s.err then s else s.setErr true (errorCode e)

/-- How every command executes (R80, R143): rejected with code 5 while BUSY = 1, else rejected if its operand is out of
range, else its effect. A command never stops the machine. -/
def runCommand (operandError : Option CmdError) (effect : State → State) (s : State) : Result :=
  if s.busy then .next (cmdError .cmdWhileBusy s)
  else
    match operandError with
    | some e => .next (cmdError e s)
    | none => .next (effect s)

end Sys2Proof.Machine
end

