-- ==== Sys2Proof/Machine/Flags.lean ====
section
/-! DEFINITION. The STATUS register as the view of the status bits that the host reads (10_state.md R30). -/

namespace Sys2Proof.Machine

/-- A flag as one bit of a 32-bit value. -/
def bit32 (b : Bool) : BitVec 32 := if b then 1 else 0

/-- `STATUS = BUSY | (ERR << 1) | (ERRCODE << 4) | (ROUNDS << 8)`; every other bit reads 0 (R30). -/
def status (s : State) : BitVec 32 :=
  bit32 s.busy ||| bit32 s.err <<< 1 ||| s.errCode.setWidth 32 <<< 4 ||| s.rounds.setWidth 32 <<< 8

/-- `value & 1`: BUSY in a STATUS value (R30, R67 `WAIT`). -/
def busyOf (value : BitVec 64) : Bool := value &&& 1 != 0

/-- `(value >> 1) & 1`: ERR in a STATUS value (R30, R67 `CHECK`). -/
def errOf (value : BitVec 64) : Bool := value >>> 1 &&& 1 != 0

end Sys2Proof.Machine
end

