-- ==== Sys2Proof/Machine/Operands.lean ====
section
/-! DEFINITION. The operand forms: the legal ranges of ARG (30_encoding.md R62, R64) and the little-endian conversions
between bytes, bus values and lanes (20_memory.md R40, R41, R44). -/

namespace Sys2Proof.Machine

/-- INIT's operand: nr > 24 is BAD_ROUNDS (R64, R81). -/
def roundsError (nr : Nat) : Option CmdError := if nr ≤ 24 then none else some .badRounds

/-- ABSORB's operand: LEN mod 8 != 0 or LEN > 200 is BAD_ABSORB_LEN (R64, R82). -/
def absorbError (len : Nat) : Option CmdError :=
  if len % 8 = 0 ∧ len ≤ 200 then none else some .badAbsorbLen

/-- EXTRACT's operand: LEN > 200 is BAD_EXTRACT_LEN (R64, R85). -/
def extractError (len : Nat) : Option CmdError := if len ≤ 200 then none else some .badExtractLen

/-- Number of bytes of an access (R42). -/
def Width.bytes : Width → Nat
  | .w1 => 1
  | .w2 => 2
  | .w4 => 4
  | .w8 => 8

/-- The little-endian value of a byte sequence, `sum of byte[k] << (8*k)` (R10 `LE64`, R40, R44). The summands share
no bit, so the sum is written as a bitwise or. -/
def leValue : List Byte → BitVec 64
  | [] => 0
  | b :: bs => b.setWidth 64 ||| leValue bs <<< 8

/-- `v[8k+7 : 8k]` (R10 `bytes_LE`, R46). -/
def byteOf (v : BitVec 64) (k : Nat) : Byte := v.extractLsb' (8 * k) 8

/-- The low `n` bytes of a bus value, lowest first (R44, R46). -/
def leBytes (v : BitVec 64) (n : Nat) : List Byte := (List.range n).map fun k => byteOf v k

/-- `lane_in(B, i)`: the 8-byte group `i` of a buffer as a lane (R40). -/
def laneIn (m : Memory) (i : Nat) : Lane := leValue (m.readBytes (8 * i) 8)

/-- `ser(L)[k]`: byte `k` of the state's serialisation (R41). -/
def serByte (A : Lanes) (k : Nat) : Byte := byteOf (laneOf A (k / 8)) (k % 8)

/-- `ser(L)[0..n-1]`: the first `n` bytes of the serialisation (R41). -/
def serialise (A : Lanes) (n : Nat) : List Byte := (List.range n).map fun k => serByte A k

end Sys2Proof.Machine
end

