-- ==== Sys2Proof/Machine/Permutation.lean ====
section
/-! DEFINITION. The Keccak-p[1600, nr] permutation: the five steps, the round and the constant tables
(41_permutation.md R110 to R119). -/

namespace Sys2Proof.Machine

/-- `rotl64(v, r)`: bit j of the result is bit (j - r) mod 64 of v (R9). -/
def rotl64 (v : Lane) (r : Nat) : Lane := v.rotateLeft r

/-- θ's column parity `C[x]` (R112). -/
def columnParity (A : Lanes) (x : Nat) : Lane :=
  laneAt A x 0 ^^^ laneAt A x 1 ^^^ laneAt A x 2 ^^^ laneAt A x 3 ^^^ laneAt A x 4

/-- θ's `D[x] = C[(x - 1) mod 5] ^ rotl64(C[(x + 1) mod 5], 1)` (R112); x + 4 is x - 1 mod 5. -/
def thetaMask (A : Lanes) (x : Nat) : Lane :=
  columnParity A (x + 4) ^^^ rotl64 (columnParity A (x + 1)) 1

/-- θ (R112). -/
def theta (A : Lanes) : Lanes := lanesOf fun i => laneOf A i ^^^ thetaMask A (i % 5)

/-- The rotation offsets RHO, indexed by lane (R114). -/
def rhoTable : List Nat :=
  [0, 1, 62, 28, 27, 36, 44, 6, 55, 20, 3, 10, 43, 25, 39, 41, 45, 15, 21, 8, 18, 2, 61, 56, 14]

/-- `RHO[i]` (R114). -/
def rhoOffset (i : Nat) : Nat := rhoTable.getD i 0

/-- ρ (R113). -/
def rho (A : Lanes) : Lanes := lanesOf fun i => rotl64 (laneOf A i) (rhoOffset i)

/-- π (R115) in its gathered form `A'[x, y] = A[(x + 3y) mod 5, x]`. -/
def piStep (A : Lanes) : Lanes := lanesOf fun i => laneAt A (i % 5 + 3 * (i / 5)) (i % 5)

/-- χ (R116). -/
def chi (A : Lanes) : Lanes :=
  lanesOf fun i => laneOf A i ^^^ (~~~laneAt A (i % 5 + 1) (i / 5) &&& laneAt A (i % 5 + 2) (i / 5))

/-- Row `k` of the table of R118, as the spec prints it: RC[k] and RC[k + 12]. The table has the rows 0 to 11. -/
def rcRow : Nat → Lane × Lane
  | 0 => (0x0000000000000001, 0x000000008000808B)
  | 1 => (0x0000000000008082, 0x800000000000008B)
  | 2 => (0x800000000000808A, 0x8000000000008089)
  | 3 => (0x8000000080008000, 0x8000000000008003)
  | 4 => (0x000000000000808B, 0x8000000000008002)
  | 5 => (0x0000000080000001, 0x8000000000000080)
  | 6 => (0x8000000080008081, 0x000000000000800A)
  | 7 => (0x8000000000008009, 0x800000008000000A)
  | 8 => (0x000000000000008A, 0x8000000080008081)
  | 9 => (0x0000000000000088, 0x8000000000008080)
  | 10 => (0x0000000080008009, 0x0000000080000001)
  | 11 => (0x000000008000000A, 0x8000000080008008)
  | _ => (0, 0)

/-- `RC[ir]`, for 0 <= ir <= 23 (R118): the left column up to 11, the right one from 12 on. No round index of R110 lies
beyond 23. -/
def roundConstant (ir : Nat) : Lane := if ir < 12 then (rcRow ir).1 else (rcRow (ir - 12)).2

/-- ι (R117). -/
def iota (A : Lanes) (ir : Nat) : Lanes :=
  lanesOf fun i => if i = 0 then laneOf A 0 ^^^ roundConstant ir else laneOf A i

/-- The round function `Rnd(A, ir)` (R111). -/
def keccakRound (A : Lanes) (ir : Nat) : Lanes := iota (chi (piStep (rho (theta A)))) ir

/-- `n` rounds with ascending round indices from `ir` on. -/
def keccakRounds : Nat → Nat → Lanes → Lanes
  | 0, _, A => A
  | n + 1, ir, A => keccakRounds n (ir + 1) (keccakRound A ir)

/-- `RC_BASE(nr)`, the first round index for `nr` rounds: 24 - nr, the last nr rounds (R119; D21). -/
def rcBase (nr : Nat) : Nat := 24 - nr

/-- `KeccakP(nr, A)` for 0 <= nr <= 24: the rounds with indices 24 - nr to 23 (R110). The one caller, `complete`,
checks nr <= 24. -/
def keccakP (nr : Nat) (A : Lanes) : Lanes := keccakRounds nr (rcBase nr) A

end Sys2Proof.Machine
end

