-- ==== Sys2Proof/Machine/Sponge.lean ====
section
/-! DEFINITION. The meanings of the six commands and the completion of a pending permutation (40_sponge_commands.md
R80 to R87). -/

namespace Sys2Proof.Machine

/-! ### INIT -/

/-- INIT's effect: zero the lanes and load ROUNDS (R81). -/
def initEffect (nr : Nat) (s : State) : State := (s.setLanes zeroLanes).setRounds (BitVec.ofNat 5 nr)

/-- INIT nr (R81). -/
def execInit (nr : Nat) (s : State) : Result := runCommand (roundsError nr) (initEffect nr) s

/-! ### ABSORB -/

/-- XOR the block `IN_BUF[0..len-1]` into the leading `len / 8` lanes (R82). -/
def absorbBlock (len : Nat) (m : Memory) (A : Lanes) : Lanes :=
  lanesOf fun i => if i < len / 8 then laneOf A i ^^^ laneIn m i else laneOf A i

/-- ABSORB's effect at issue (R82). -/
def absorbEffect (len : Nat) (s : State) : State :=
  (s.setLanes (absorbBlock len s.inBuf s.lanes)).startPermutation

/-- ABSORB len (R82). -/
def execAbsorb (len : Nat) (s : State) : Result := runCommand (absorbError len) (absorbEffect len) s

/-! ### PERMUTE and completion -/

/-- PERMUTE's effect at issue (R83). -/
def permuteEffect (s : State) : State := s.startPermutation

/-- PERMUTE (R83). -/
def execPermute (s : State) : Result := runCommand none permuteEffect s

/-- The engine's only step of its own (R84), taken exactly when PENDING = 1. No KeccakP value exists for a ROUNDS
beyond 24, which R26 rules out (U2): there the machine stops by name (assumption 4). -/
def complete (s : State) : Result :=
  if s.rounds.toNat ≤ 24 then .next (s.setLanes (keccakP s.rounds.toNat s.lanes)).endPermutation
  else .fault (.roundsOutOfRange s.rounds)

/-! ### EXTRACT -/

/-- EXTRACT's effect: `OUT_BUF[k] <- ser(L)[k]` for k in 0..len-1 (R85). -/
def extractEffect (len : Nat) (s : State) : State :=
  s.setOutBuf (s.outBuf.writeBytes 0 (serialise s.lanes len))

/-- EXTRACT len (R85). -/
def execExtract (len : Nat) (s : State) : Result := runCommand (extractError len) (extractEffect len) s

/-! ### WIPE -/

/-- WIPE's effect: erase the lanes, both buffers and the error record, and restore ROUNDS (R86). -/
def wipeEffect (s : State) : State :=
  ((((s.setLanes zeroLanes).setInBuf []).setOutBuf []).setRounds 24).setErr false 0

/-- WIPE (R86). -/
def execWipe (s : State) : Result := runCommand none wipeEffect s

/-! ### CLRERR -/

/-- CLRERR's effect (R87). -/
def clrerrEffect (s : State) : State := s.setErr false 0

/-- CLRERR (R87). -/
def execClrerr (s : State) : Result := runCommand none clrerrEffect s

end Sys2Proof.Machine
end

