-- ==== Sys2Proof/Machine/Dispatch.lean ====
section
/-! DEFINITION. The meaning of a command, one arm per constructor of `Instr` (40_sponge_commands.md R81 to R87). -/

namespace Sys2Proof.Machine

def exec (i : Instr) (s : State) : Host.Outcome State Fault Refusal :=
  match i with
  | .init nr => Sys2Proof.Machine.execInit nr s
  | .absorb len => Sys2Proof.Machine.execAbsorb len s
  | .permute => Sys2Proof.Machine.execPermute s
  | .extract len => Sys2Proof.Machine.execExtract len s
  | .wipe => Sys2Proof.Machine.execWipe s
  | .clrerr => Sys2Proof.Machine.execClrerr s

end Sys2Proof.Machine
end

