-- ==== Sys2Proof/Machine/Bus.lean ====
section
/-! DEFINITION. The host window: address map, alignment, the permitted accesses and what each does, command issue
(20_memory.md R42 to R49; 40_sponge_commands.md R80; 60_exceptions.md R145). -/

namespace Sys2Proof.Machine

/-! ### The address map -/

/-- Offset of CMD (R29). -/
def cmdOffset : BitVec 12 := 0x200

/-- Offset of STATUS (R30). -/
def statusOffset : BitVec 12 := 0x204

/-- Offset of `OUT_BUF[0]` (R43). -/
def outBufOffset : Nat := 0x100

/-- The row of the address map an offset lies in (R43). -/
def regionOf (off : BitVec 12) : Region :=
  if off.toNat ≤ 0x0C7 then .inBuf
  else if off.toNat ≤ 0x0FF then .reserved
  else if off.toNat ≤ 0x1C7 then .outBuf
  else if off.toNat ≤ 0x1FF then .reserved
  else if off.toNat ≤ 0x203 then .cmd
  else if off.toNat ≤ 0x207 then .status
  else .reserved

/-- The access is naturally aligned: `off mod n = 0` (R45). -/
def aligned (off : BitVec 12) (n : Width) : Bool := off.toNat % n.bytes == 0

/-- Direction and width that a row of the map permits (R43). -/
def rowPermits : Region → Direction → Width → Bool
  | .inBuf, _, _ => true
  | .outBuf, .read, _ => true
  | .outBuf, .write, _ => false
  | .cmd, .read, _ => false
  | .cmd, .write, n => n == .w4
  | .status, .read, n => n == .w4
  | .status, .write, _ => false
  | .reserved, _, _ => false

/-- The access is permitted: its row's direction and width match and it is aligned (R43, R45). -/
def permitted (off : BitVec 12) (n : Width) (dir : Direction) : Bool :=
  rowPermits (regionOf off) dir n && aligned off n

/-! ### Reads -/

/-- The value a permitted read returns (R44, R46 to R48). CMD and the reserved rows permit no read. -/
def readValue (off : BitVec 12) (n : Width) (s : State) : BitVec 64 :=
  match regionOf off with
  | .inBuf => leValue (s.inBuf.readBytes off.toNat n.bytes)
  | .outBuf => leValue (s.outBuf.readBytes (off.toNat - outBufOffset) n.bytes)
  | .status => (status s).setWidth 64
  | .cmd => 0
  | .reserved => 0

/-- `MemRead(off, n)`: answer the value, with no side effect on the engine, or a bus error (R43, R49). -/
def busRead (off : BitVec 12) (n : Width) (s : State) : Result :=
  if permitted off n .read then .next (s.addReply ⟨off, n, readValue off n s⟩)
  else .fault (.busError off n .read)

/-! ### Command issue -/

/-- An illegal word is issued: code 5 while BUSY = 1, else code 1 (R80, R143). -/
def issueIllegal (s : State) : Result := runCommand (some .illegalCmd) id s

/-- `issue(w)` (R80). The BUSY check of R80, which comes before the decoding, is the first thing every meaning and
`issueIllegal` do. -/
def issue (w : CmdWord) (s : State) : Result :=
  match decode w with
  | .ok i => exec i s
  | .error _ => issueIllegal s

/-! ### Writes -/

/-- `MemWrite(off, n, v)`: store to IN_BUF, issue a command, or a bus error (R43, R46, R48). -/
def busWrite (off : BitVec 12) (n : Width) (v : BitVec 64) (s : State) : Result :=
  if permitted off n .write then
    match regionOf off with
    | .inBuf => .next (s.setInBuf (s.inBuf.writeBytes off.toNat (leBytes v n.bytes)))
    | .cmd => issue (v.setWidth 32) s
    | .outBuf => .fault (.busError off n .write)
    | .status => .fault (.busError off n .write)
    | .reserved => .fault (.busError off n .write)
  else .fault (.busError off n .write)

end Sys2Proof.Machine
end

