-- ==== Sys2Proof/Machine/HostSide.lean ====
section
/-! DEFINITION. The host's operations as the device performs them, which agent moves next, and the assembler's
pseudo-instructions (00_scope.md R11; 20_memory.md R50; 30_encoding.md R67). -/

namespace Sys2Proof.Machine

/-- Perform one host operation on the state from which it has been taken. A WAIT whose poll reads BUSY = 1 goes back to the
head of the queue, so no other operation of the queue falls between two polls of one WAIT. R160 leaves open when the reset
comes; that it has its own place in the host's sequence is the model's choice (assumption 3; DESIGN CHOICE). R57 leaves
open how several masters interleave; that another master's access never falls between two polls is the model's choice
(assumption 18; DESIGN CHOICE). -/
def perform (op : HostOp) (s : State) : Result :=
  match op with
  | .read off n => busRead off n s
  | .write off n v => busWrite off n v s
  | .wait =>
    -- `loop: LW 0x204; if (value & 1) != 0 goto loop` (R67)
    let value := readValue statusOffset .w4 s
    let t := s.addReply ⟨statusOffset, .w4, value⟩
    if busyOf value then .next (t.setQueue (.wait :: t.queue)) else .next t
  | .check =>
    -- `LW 0x204`, and `(value >> 1) & 1 == 0` is required (R67)
    let value := readValue statusOffset .w4 s
    if errOf value then .fault (.checkFailed value) else .next (s.addReply ⟨statusOffset, .w4, value⟩)
  | .reset => .next s.resetEngine

/-- The engine's completion moves next: PENDING = 1, and its delay is over or the host issues nothing more (R11, R84,
R97). -/
def engineMoves (s : State) : Bool := s.pending && (s.delay == 0 || s.queue.isEmpty)

/-- The host's next operation; with none left the engine stays in its state (R97). -/
def hostStep (s : State) : Result :=
  match s.queue with
  | [] => .next s
  | op :: rest => perform op (s.takeOp rest)

/-- Either agent's step (R11, R50). -/
def agentStep (s : State) : Result := if engineMoves s then complete s else hostStep s

/-! ### Host programs (R67) -/

/-- `SW 0x200, w` with the command's word. -/
def command (i : Instr) : HostOp := .write cmdOffset .w4 ((encode i).setWidth 64)

/-- `SB off, v`. -/
def storeByte (off : BitVec 12) (v : BitVec 64) : HostOp := .write off .w1 v

/-- `SH off, v`. -/
def storeHalf (off : BitVec 12) (v : BitVec 64) : HostOp := .write off .w2 v

/-- `SW off, v`. -/
def storeWord (off : BitVec 12) (v : BitVec 64) : HostOp := .write off .w4 v

/-- `SD off, v`. -/
def storeDouble (off : BitVec 12) (v : BitVec 64) : HostOp := .write off .w8 v

/-- `LB off`. -/
def loadByte (off : BitVec 12) : HostOp := .read off .w1

/-- `LH off`. -/
def loadHalf (off : BitVec 12) : HostOp := .read off .w2

/-- `LW off`. -/
def loadWord (off : BitVec 12) : HostOp := .read off .w4

/-- `LD off`. -/
def loadDouble (off : BitVec 12) : HostOp := .read off .w8

/-- One `SB` per byte, byte j to IN_BUF offset `j0 + j`. R67 lets LOADBLK expand to wider aligned stores too; one `SB` per
byte is the model's choice (assumption 19; DESIGN CHOICE). -/
def loadBlkFrom : Nat → List Byte → List HostOp
  | _, [] => []
  | j, b :: bs => storeByte (BitVec.ofNat 12 j) (b.setWidth 64) :: loadBlkFrom (j + 1) bs

/-- `LOADBLK bytes`, in the expansion of `loadBlkFrom` (assumption 19). -/
def loadBlk (bytes : List Byte) : List HostOp := loadBlkFrom 0 bytes

/-- `ABSORBW len`. -/
def absorbW (len : Nat) : List HostOp := [command (.absorb len), .wait]

/-- `PERMUTEW`. -/
def permuteW : List HostOp := [command .permute, .wait]

/-- `SQUEEZE len`. -/
def squeeze (len : Nat) : List HostOp := [command .permute, .wait, command (.extract len)]

end Sys2Proof.Machine
end

