-- ==== Sys2Proof/Machine/Step.lean ====
section
/-! DEFINITION. One step of the machine, and the placing of a command word where the next step issues it. -/

namespace Sys2Proof.Machine

/-- One step: the engine's completion or the host's next operation. -/
def step (s : State) : Host.Outcome State Fault Refusal := agentStep s

/-- `s` with the host's next operation a write of the word to CMD. The engine fetches nothing (R25): the host's access
sequence is the program. Taking the operation brings a pending completion one operation nearer, so the delay grows by
one and the next step issues the word in exactly the state `s` (assumption 2). -/
def State.withFetchWord (s : State) (nbits w : Nat) : State :=
  { s with
    queue := .write cmdOffset .w4 (BitVec.ofNat 64 (w % 2 ^ nbits % 2 ^ 32)) :: s.queue
    delay := s.delay + 1 }

end Sys2Proof.Machine
end

