-- ==== Sys2Proof/Machine/Platform.lean ====
section
/-! DEFINITION. A platform of `N_INST` engine instances, each with its own window at its own `BASE`, which share
nothing (00_scope.md R8; 20_memory.md R42; 60_exceptions.md R150). -/

namespace Sys2Proof.Machine

/-- The host address of an offset in an instance's window: `BASE + off` (R42). -/
def hostAddress (inst : Nat) (off : BitVec 12) : Nat := Config.base inst + off.toNat

/-- The offset a host address names in an instance's window, if it lies in the window (R42). -/
def windowOffset (inst : Nat) (addr : Nat) : Option (BitVec 12) :=
  if Config.base inst ≤ addr ∧ addr < Config.base inst + 4096 then
    some (BitVec.ofNat 12 (addr - Config.base inst))
  else none

/-- The instances of the platform, by number (R150). -/
structure Platform where
  engines : List State
deriving DecidableEq, Repr

/-- Every instance right after reset (R150, R160), under its own number, so that its delays are its own (R8, R150;
assumption 10). -/
def Platform.reset : Platform :=
  ⟨(List.range Config.nInst).map fun k => { State.reset with inst := k }⟩

/-- A step of instance `k`; no other instance moves (R150). A number with no instance moves nothing. -/
def Platform.stepInstance (k : Nat) (p : Platform) : Host.Outcome Platform Fault Refusal :=
  match p.engines[k]? with
  | none => .next p
  | some s =>
    match step s with
    | .next t => .next ⟨p.engines.set k t⟩
    | .fault r => .fault r
    | .refused r => .refused r

end Sys2Proof.Machine
end

