-- ==== Sys2Proof/Safety.lean ====
section
/-! DEFINITION. What claims about the engine are stated in: its invariant, a rejected command, the end of a run and a
host that waits. -/

namespace Sys2Proof.Machine

/-- What R26, R30, R33 and R141 say of every state, and the canonical form of both buffers. -/
def State.Inv (s : State) : Prop :=
  s.rounds.toNat ≤ 24 ∧ s.busy = s.pending ∧
  (s.err = false → s.errCode = 0) ∧ (s.err = true → 1 ≤ s.errCode.toNat ∧ s.errCode.toNat ≤ 5) ∧
  s.inBuf.wf = true ∧ s.outBuf.wf = true

/-- Every engine field of `t` but ERR and ERRCODE is as in `s`, and so is the host's side. -/
def SameButError (s t : State) : Prop :=
  t.lanes = s.lanes ∧ t.rounds = s.rounds ∧ t.inBuf = s.inBuf ∧ t.outBuf = s.outBuf ∧
  t.pending = s.pending ∧ t.busy = s.busy ∧
  t.queue = s.queue ∧ t.replies = s.replies ∧ t.delay = s.delay ∧ t.draws = s.draws ∧
  t.inst = s.inst

/-- The command was rejected with this code and nothing else happened (R142): the first code is kept. -/
def Rejected (code : BitVec 4) (s t : State) : Prop :=
  SameButError s t ∧ t.err = true ∧ t.errCode = if s.err then s.errCode else code

/-- A cause of rejection holds when the word is written to CMD: BUSY = 1, an illegal word, or an operand out of range (R80,
R143). -/
def RejectionCause (w : CmdWord) (s : State) : Prop :=
  s.busy = true ∨ (∃ e, decode w = .error e) ∨ (∃ nr, decode w = .ok (.init nr) ∧ 24 < nr) ∨
  (∃ len, decode w = .ok (.absorb len) ∧ (len % 8 ≠ 0 ∨ 200 < len)) ∨
  (∃ len, decode w = .ok (.extract len) ∧ 200 < len)

/-- The host's side and the model's free delay are as before. -/
def SameHostSide (s t : State) : Prop :=
  t.queue = s.queue ∧ t.replies = s.replies ∧ t.delay = s.delay ∧ t.draws = s.draws ∧
  t.inst = s.inst

/-- Byte `k` of IN_BUF. -/
def State.inByte (s : State) (k : Nat) : Byte := s.inBuf.read k

/-- Byte `k` of OUT_BUF. -/
def State.outByte (s : State) (k : Nat) : Byte := s.outBuf.read k

/-- Lane `i`. -/
def State.lane (s : State) (i : Nat) : Lane := laneOf s.lanes i

/-- The run has ended (R167): the host has performed its last access and BUSY = 0. R167 says nothing of a reset after the
last access; that a reset still in the queue keeps the run open, and that one which abandons a pending permutation ends
it with no completion, is the model's choice (assumption 20; DESIGN CHOICE). -/
def RunEnded (s : State) : Prop := s.queue = [] ∧ s.busy = false

/-- What R167 calls observed of the reads: the bytes read from OUT_BUF, newest first. -/
def outBufReads (s : State) : List ReadReply :=
  s.replies.filter fun r => decide (regionOf r.off = .outBuf)

/-- The last STATUS value read (R167). -/
def lastStatusRead (s : State) : Option (BitVec 64) :=
  (s.replies.find? fun r => decide (regionOf r.off = .status)).map ReadReply.value

/-- The word issues a permutation if it is accepted (R82, R83). -/
def startsPermutation (w : CmdWord) : Bool :=
  match decode w with
  | .ok (.absorb _) => true
  | .ok .permute => true
  | _ => false

/-- The host duty of R96 and R163: after a write that may issue a permutation, a WAIT (or a reset) comes before the
next CMD write. The first argument says whether such a write is still unwaited. That a reset meets the duty too, and that
plain STATUS reads do not, is the model's choice (assumption 21; DESIGN CHOICE). -/
def waitsBeforeCommands : Bool → List HostOp → Bool
  | _, [] => true
  | _, .wait :: rest => waitsBeforeCommands false rest
  | _, .reset :: rest => waitsBeforeCommands false rest
  | open_, .write off n v :: rest =>
    if regionOf off = .cmd ∧ n = .w4 then !open_ && waitsBeforeCommands (startsPermutation (v.setWidth 32)) rest
    else waitsBeforeCommands open_ rest
  | open_, .read _ _ :: rest => waitsBeforeCommands open_ rest
  | open_, .check :: rest => waitsBeforeCommands open_ rest

/-- The table of R43 with the alignment of R45, row by row: range, direction, width. -/
def MapPermits (off n : Nat) (dir : Direction) : Prop :=
  off % n = 0 ∧
  (off ≤ 0x0C7 ∨
   (0x100 ≤ off ∧ off ≤ 0x1C7 ∧ dir = .read) ∨
   (0x200 ≤ off ∧ off ≤ 0x203 ∧ dir = .write ∧ n = 4) ∨
   (0x204 ≤ off ∧ off ≤ 0x207 ∧ dir = .read ∧ n = 4))

/-- The host's next operation is a CMD write of a word that decodes to the command, and it is performed now. -/
def CommandWritten (i : Instr) (s : State) : Prop :=
  engineMoves s = false ∧
  ∃ v rest, s.queue = .write cmdOffset .w4 v :: rest ∧ decode (v.setWidth 32) = .ok i

/-- The host's next operation is the reset, and it happens now. -/
def ResetNow (s : State) : Prop := engineMoves s = false ∧ ∃ rest, s.queue = .reset :: rest

/-- `pad_r(B)`: the state whose serialisation begins with the bytes B and is 0 after them (R91). -/
def padLanes (bytes : List Byte) : Lanes := lanesOf fun i => leValue ((bytes.drop (8 * i)).take 8)

/-- `A ^ B`, lane by lane. -/
def xorLanes (A B : Lanes) : Lanes := lanesOf fun i => laneOf A i ^^^ laneOf B i

/-- The walk of FIPS 202 Algorithm 2 that R114 quotes: `(x, y) <- (y, (2x + 3y) mod 5)` from (1, 0). -/
def rhoWalk : Nat → Nat × Nat
  | 0 => (1, 0)
  | t + 1 => ((rhoWalk t).2, (2 * (rhoWalk t).1 + 3 * (rhoWalk t).2) % 5)

/-- The LFSR `x^8 + x^6 + x^5 + x^4 + 1` of R118 after `t` steps from the state 1. -/
def rcLfsr : Nat → BitVec 8
  | 0 => 1
  | t + 1 => (rcLfsr t <<< 1) ^^^ (if (rcLfsr t).getLsbD 7 then 0x71 else 0)

/-- `rc(t)` (R118). -/
def rcBit (t : Nat) : Bool := (rcLfsr (t % 255)).getLsbD 0

end Sys2Proof.Machine
end

