-- ==== Sys2Proof/Certificates/Slice0/Obligations.lean ====
section
/-! DEFINITION. The statements for the provers. A rule that is cited is a rule of spec/; a clause that rests on a choice
of the model names its row of notes/assumptions. What a statement says of the model's own fields (queue, replies, delay,
draws and inst: assumptions 1, 2, 6 and 10) belongs to its frame and formalises no rule. -/

open Sys2Proof Sys2Proof.Machine

/-! ### The six commands -/

/-- R81: INIT's word, effect, rejections, flags and frame. -/
def Obligations.InitZeroesLanesAndLoadsRounds : Prop :=
  ∀ (nr : Nat) (s : State),
    (nr < 256 → issue (BitVec.ofNat 32 (nr * 256 + 1)) s = exec (.init nr) s) ∧
    (s.busy = true → ∃ t, exec (.init nr) s = .next t ∧ Rejected 5 s t) ∧
    (s.busy = false → 24 < nr → ∃ t, exec (.init nr) s = .next t ∧ Rejected 2 s t) ∧
    (s.busy = false → nr ≤ 24 → ∃ t, exec (.init nr) s = .next t ∧
      (∀ i < 25, t.lane i = 0) ∧ t.rounds.toNat = nr ∧
      t.inBuf = s.inBuf ∧ t.outBuf = s.outBuf ∧ t.pending = s.pending ∧ t.busy = false ∧
      t.err = s.err ∧ t.errCode = s.errCode ∧ SameHostSide s t ∧
      (s.err = false → s.errCode = 0 → (status t).toNat = nr * 256) ∧
      (nr = 0 → ∀ A, keccakP t.rounds.toNat A = A)) ∧
    (s.busy = false → ∀ w : CmdWord, opField w = 1 → rsv0Field w ≠ 0 ∨ rsv1Field w ≠ 0 →
      ∃ t, issue w s = .next t ∧ Rejected 1 s t)

/-- R82: ABSORB's word, effect at issue, rejections, flags and frame. Bit j of lane i of the result is said through the
IN_BUF byte it is XORed with. -/
def Obligations.AbsorbXorsBlockAndIssuesPermutation : Prop :=
  ∀ (len : Nat) (s : State),
    (len < 256 → issue (BitVec.ofNat 32 (len * 256 + 2)) s = exec (.absorb len) s) ∧
    (s.busy = true → ∃ t, exec (.absorb len) s = .next t ∧ Rejected 5 s t) ∧
    (s.busy = false → len % 8 ≠ 0 ∨ 200 < len → ∃ t, exec (.absorb len) s = .next t ∧ Rejected 3 s t) ∧
    (s.busy = false → len % 8 = 0 → len ≤ 200 → ∃ t, exec (.absorb len) s = .next t ∧
      (∀ i < 25, ∀ j < 64, (t.lane i).getLsbD j =
        ((s.lane i).getLsbD j ^^
          (decide (8 * i + j / 8 < len) && (s.inByte (8 * i + j / 8)).getLsbD (j % 8)))) ∧
      t.pending = true ∧ t.busy = true ∧ t.rounds = s.rounds ∧ t.inBuf = s.inBuf ∧ t.outBuf = s.outBuf ∧
      t.err = s.err ∧ t.errCode = s.errCode ∧
      t.queue = s.queue ∧ t.replies = s.replies) ∧
    (s.busy = false → ∀ w : CmdWord, opField w = 2 → rsv0Field w ≠ 0 ∨ rsv1Field w ≠ 0 →
      ∃ t, issue w s = .next t ∧ Rejected 1 s t)

/-- R83: PERMUTE's word, effect at issue, rejections, flags and frame, and what its completion computes. -/
def Obligations.PermuteIssuesOnePermutation : Prop :=
  ∀ s : State,
    issue 0x00000003 s = exec .permute s ∧
    (s.busy = true → ∃ t, exec .permute s = .next t ∧ Rejected 5 s t) ∧
    (s.busy = false → ∃ t, exec .permute s = .next t ∧
      t.pending = true ∧ t.busy = true ∧ t.lanes = s.lanes ∧ t.rounds = s.rounds ∧
      t.inBuf = s.inBuf ∧ t.outBuf = s.outBuf ∧ t.err = s.err ∧ t.errCode = s.errCode ∧
      t.queue = s.queue ∧ t.replies = s.replies ∧
      (s.rounds.toNat ≤ 24 → ∃ u, complete t = .next u ∧ u.lanes = keccakP s.rounds.toNat s.lanes ∧
        u.busy = false ∧ (s.rounds = 0 → u.lanes = s.lanes))) ∧
    (s.busy = false → ∀ w : CmdWord, opField w = 3 →
      argField w ≠ 0 ∨ rsv0Field w ≠ 0 ∨ rsv1Field w ≠ 0 → ∃ t, issue w s = .next t ∧ Rejected 1 s t)

/-- R85: EXTRACT's word, effect, rejections, flags and frame. OUT_BUF's canonical form is an invariant
(`StepKeepsTheInvariant`). -/
def Obligations.ExtractCopiesSerialisation : Prop :=
  ∀ (len : Nat) (s : State),
    (len < 256 → issue (BitVec.ofNat 32 (len * 256 + 4)) s = exec (.extract len) s) ∧
    (s.busy = true → ∃ t, exec (.extract len) s = .next t ∧ Rejected 5 s t) ∧
    (s.busy = false → 200 < len → ∃ t, exec (.extract len) s = .next t ∧ Rejected 4 s t) ∧
    (s.busy = false → len ≤ 200 → ∃ t, exec (.extract len) s = .next t ∧
      (s.outBuf.wf = true →
        (∀ k < len, ∀ j < 8, (t.outByte k).getLsbD j = (s.lane (k / 8)).getLsbD (8 * (k % 8) + j)) ∧
        (∀ k, len ≤ k → t.outByte k = s.outByte k)) ∧
      (len = 0 → t = s) ∧
      t.lanes = s.lanes ∧ t.rounds = s.rounds ∧ t.inBuf = s.inBuf ∧ t.pending = s.pending ∧ t.busy = false ∧
      t.err = s.err ∧ t.errCode = s.errCode ∧ SameHostSide s t) ∧
    (s.busy = false → ∀ w : CmdWord, opField w = 4 → rsv0Field w ≠ 0 ∨ rsv1Field w ≠ 0 →
      ∃ t, issue w s = .next t ∧ Rejected 1 s t)

/-- R86: WIPE's word, effect, rejections, flags and frame. -/
def Obligations.WipeRestoresTheResetState : Prop :=
  ∀ s : State,
    issue 0x00000005 s = exec .wipe s ∧
    (s.busy = true → ∃ t, exec .wipe s = .next t ∧ Rejected 5 s t) ∧
    (s.busy = false → ∃ t, exec .wipe s = .next t ∧
      (∀ i < 25, t.lane i = 0) ∧ (∀ k, t.inByte k = 0) ∧ (∀ k, t.outByte k = 0) ∧ t.rounds.toNat = 24 ∧
      t.err = false ∧ t.errCode = 0 ∧ t.busy = false ∧ t.pending = s.pending ∧
      (status t).toNat = 0x1800 ∧ SameHostSide s t ∧
      (s.pending = false → t = { State.reset with
        queue := s.queue, replies := s.replies, delay := s.delay, draws := s.draws, inst := s.inst })) ∧
    (s.busy = false → ∀ w : CmdWord, opField w = 5 →
      argField w ≠ 0 ∨ rsv0Field w ≠ 0 ∨ rsv1Field w ≠ 0 → ∃ t, issue w s = .next t ∧ Rejected 1 s t)

/-- R87: CLRERR's word, effect, rejections, flags and frame. -/
def Obligations.ClrerrClearsTheErrorRecord : Prop :=
  ∀ s : State,
    issue 0x00000006 s = exec .clrerr s ∧
    (s.busy = true → ∃ t, exec .clrerr s = .next t ∧ Rejected 5 s t ∧
      (s.err = false → t.err = true ∧ t.errCode = 5)) ∧
    (s.busy = false → ∃ t, exec .clrerr s = .next t ∧
      t.err = false ∧ t.errCode = 0 ∧
      t.lanes = s.lanes ∧ t.rounds = s.rounds ∧ t.inBuf = s.inBuf ∧ t.outBuf = s.outBuf ∧
      t.pending = s.pending ∧ t.busy = false ∧ SameHostSide s t ∧
      (s.err = false → s.errCode = 0 → t = s)) ∧
    (s.busy = false → ∀ w : CmdWord, opField w = 6 →
      argField w ≠ 0 ∨ rsv0Field w ≠ 0 ∨ rsv1Field w ≠ 0 → ∃ t, issue w s = .next t ∧ Rejected 1 s t)

/-- R143: which one code a CMD write raises, in order, whatever the word; otherwise no new error is recorded. An access
of the CMD row that the bus rejects issues no command. -/
def Obligations.OneErrorCodeInPriorityOrder : Prop :=
  (∀ (w : CmdWord) (s : State), ∃ t, issue w s = .next t ∧
    if s.busy = true then Rejected 5 s t
    else if (w.toNat / 16 % 16 ≠ 0 ∨ w.toNat / 65536 ≠ 0 ∨ w.toNat % 16 = 0 ∨ 7 ≤ w.toNat % 16) ∨
        ((w.toNat % 16 = 3 ∨ w.toNat % 16 = 5 ∨ w.toNat % 16 = 6) ∧ w.toNat / 256 % 256 ≠ 0) then Rejected 1 s t
    else if w.toNat % 16 = 1 ∧ 24 < w.toNat / 256 % 256 then Rejected 2 s t
    else if w.toNat % 16 = 2 ∧ (w.toNat / 256 % 256 % 8 ≠ 0 ∨ 200 < w.toNat / 256 % 256) then Rejected 3 s t
    else if w.toNat % 16 = 4 ∧ 200 < w.toNat / 256 % 256 then Rejected 4 s t
    else (t.err = s.err ∧ t.errCode = s.errCode) ∨ (t.err = false ∧ t.errCode = 0)) ∧
  (∀ (s : State) (off : BitVec 12) (n : Width) (v : BitVec 64) (rest : List HostOp),
    engineMoves s = false → s.queue = .write off n v :: rest → 0x200 ≤ off.toNat → off.toNat ≤ 0x203 →
    n ≠ .w4 ∨ off.toNat % 4 ≠ 0 → step s = .fault (.busError off n .write))

/-- A command never stops the machine, whatever its operand and the state (R94, R140, R144): derived. -/
def Obligations.CommandsNeverStopTheMachine : Prop :=
  (∀ (i : Instr) (s : State), ∃ t, exec i s = .next t) ∧ (∀ (w : CmdWord) (s : State), ∃ t, issue w s = .next t)

/-- The frame of every command, accepted or rejected: what each leaves unchanged. -/
def Obligations.CommandFrame : Prop :=
  ∀ (i : Instr) (s t : State), exec i s = .next t →
    t.queue = s.queue ∧ t.replies = s.replies ∧ t.inst = s.inst ∧
    ((∀ nr, i ≠ .init nr) → (∀ len, i ≠ .absorb len) → i ≠ .wipe → t.lanes = s.lanes) ∧
    (∀ len, i = .absorb len → ∀ k, len ≤ 8 * k → t.lane k = s.lane k) ∧
    ((∀ nr, i ≠ .init nr) → i ≠ .wipe → t.rounds = s.rounds) ∧
    (i ≠ .wipe → ∀ k, t.inByte k = s.inByte k) ∧
    ((∀ len, i ≠ .extract len) → i ≠ .wipe → ∀ k, t.outByte k = s.outByte k) ∧
    (∀ len, i = .extract len → s.outBuf.wf = true → ∀ k, len ≤ k → t.outByte k = s.outByte k) ∧
    ((∀ len, i ≠ .absorb len) → i ≠ .permute → t.busy = s.busy ∧ t.pending = s.pending ∧ t.delay = s.delay ∧
      t.draws = s.draws) ∧
    (i ≠ .wipe → i ≠ .clrerr → s.err = true → t.err = true ∧ t.errCode = s.errCode)

/-! ### Encoding -/

/-- Decoding an encoded well-formed command gives it back (R60, R66, R67): derived. -/
def Obligations.DecodeOfEncode : Prop :=
  ∀ i : Instr, i.WellFormed → decode (encode i) = .ok i

/-- A word that decodes is the encoding of its command, which is well formed (R60, R66, R67): derived. -/
def Obligations.EncodeOfDecode : Prop :=
  ∀ (w : CmdWord) (i : Instr), decode w = .ok i → i.WellFormed ∧ encode i = w

/-- R63: a word is illegal exactly in the four cases, and its command is then rejected with code 1 and no other
effect. -/
def Obligations.IllegalWordsAreThoseOfTheRule : Prop :=
  ∀ w : CmdWord,
    ((∃ e, decode w = .error e) ↔
      (w.toNat % 16 = 0 ∨ 7 ≤ w.toNat % 16) ∨ w.toNat / 16 % 16 ≠ 0 ∨ w.toNat / 65536 ≠ 0 ∨
      ((w.toNat % 16 = 3 ∨ w.toNat % 16 = 5 ∨ w.toNat % 16 = 6) ∧ w.toNat / 256 % 256 ≠ 0)) ∧
    ∀ (e : Illegal) (s : State), decode w = .error e → s.busy = false → ∃ t, issue w s = .next t ∧ Rejected 1 s t

/-- The twenty example words of R68, by hand from R60 and R61 (an inference the spec marks as its own): derived. -/
def Obligations.ExampleWordsDecode : Prop :=
  decode 0x00001801 = .ok (.init 24) ∧ decode 0x00000001 = .ok (.init 0) ∧
  decode 0x00000C01 = .ok (.init 12) ∧ decode 0x00001901 = .ok (.init 25) ∧
  decode 0x00008802 = .ok (.absorb 136) ∧ decode 0x00000002 = .ok (.absorb 0) ∧
  decode 0x0000C802 = .ok (.absorb 200) ∧ decode 0x00000C02 = .ok (.absorb 12) ∧
  decode 0x0000D002 = .ok (.absorb 208) ∧ decode 0x00000003 = .ok .permute ∧
  decode 0x00002004 = .ok (.extract 32) ∧
  decode 0x00000304 = .ok (.extract 3) ∧ decode 0x0000C904 = .ok (.extract 201) ∧
  decode 0x00000005 = .ok .wipe ∧ decode 0x00000006 = .ok .clrerr ∧
  decode 0x00000000 = .error .reservedOp ∧ decode 0x00000103 = .error .argNotZero ∧
  decode 0x00010001 = .error .rsv1NotZero ∧ decode 0x00000011 = .error .rsv0NotZero ∧
  decode 0x00000007 = .error .reservedOp

/-! ### The step -/

/-- A step runs the decoded command: the host's CMD write is taken from the queue (which brings a pending completion one
operation nearer) and the command executes; with `withFetchWord` it executes in exactly the state given. How the queue
and the delay stand around `exec` is the model's (assumptions 1 and 2): derived. -/
def Obligations.StepRunsTheDecodedCommand : Prop :=
  (∀ (s : State) (v : BitVec 64) (rest : List HostOp) (i : Instr),
    engineMoves s = false → s.queue = .write cmdOffset .w4 v :: rest → decode (v.setWidth 32) = .ok i →
    step s = exec i { s with queue := rest, delay := s.delay - 1 }) ∧
  (∀ (s : State) (w : Nat) (i : Instr),
    decode (BitVec.ofNat 32 w) = .ok i → step (s.withFetchWord 32 w) = exec i s)

/-- The pending completion (R84): enabled exactly when PENDING = 1, one atomic permutation under ROUNDS, nothing else
changed. When it is scheduled, and the stop beyond 24 rounds, are the model's (assumptions 1 and 4): derived. -/
def Obligations.CompletionAppliesThePermutation : Prop :=
  (∀ s : State, s.pending = true → s.delay = 0 ∨ s.queue = [] → s.rounds.toNat ≤ 24 →
    ∃ t, step s = .next t ∧ t.lanes = keccakP s.rounds.toNat s.lanes ∧ t.pending = false ∧ t.busy = false ∧
      t.rounds = s.rounds ∧ t.inBuf = s.inBuf ∧ t.outBuf = s.outBuf ∧ t.err = s.err ∧ t.errCode = s.errCode ∧
      t.queue = s.queue ∧ t.replies = s.replies ∧ t.draws = s.draws ∧ t.inst = s.inst) ∧
  (∀ s : State, s.pending = true → s.delay = 0 ∨ s.queue = [] → 24 < s.rounds.toNat →
    step s = .fault (.roundsOutOfRange s.rounds)) ∧
  (∀ s : State, s.pending = false → step s = hostStep s)

/-- A host that issues nothing more (R97): a pending completion still happens, and nothing else does. The completion
then comes at once, which is the model's schedule (assumption 1), and `RunEnded` asks for an empty queue (assumption 20):
derived. -/
def Obligations.SilentHostLeavesTheEngineAlone : Prop :=
  ∀ s : State, s.queue = [] →
    (s.pending = false → step s = .next s) ∧
    (s.pending = true → s.rounds.toNat ≤ 24 → ∃ t, step s = .next t ∧ t.pending = false ∧ step t = .next t ∧
      RunEnded t)

/-- R160 and R161: the reset event puts every piece of engine state at its reset value, and abandons a pending
permutation; the next CMD write is handled. That the host's own operations stay is assumption 3: derived. -/
def Obligations.ResetEventRestoresEveryRegister : Prop :=
  ∀ (s : State) (rest : List HostOp), engineMoves s = false → s.queue = .reset :: rest →
    ∃ t, step s = .next t ∧ (∀ i < 25, t.lane i = 0) ∧ t.rounds.toNat = 24 ∧ (∀ k, t.inByte k = 0) ∧
      (∀ k, t.outByte k = 0) ∧ t.pending = false ∧ t.busy = false ∧ t.err = false ∧ t.errCode = 0 ∧
      (status t).toNat = 0x1800 ∧ t.queue = rest ∧ t.replies = s.replies ∧ t.inst = s.inst ∧
      ∀ (v : BitVec 64) (more : List HostOp), rest = .write cmdOffset .w4 v :: more →
        step t = issue (v.setWidth 32) { t with queue := more }

/-- R35: every piece of state has its reset value after reset and after WIPE. -/
def Obligations.ResetAndWipeValues : Prop :=
  ∀ t : State,
    (t = State.reset ∨ ∃ s, s.busy = false ∧ s.pending = s.busy ∧ exec .wipe s = .next t) →
    (∀ i < 25, t.lane i = 0) ∧ t.rounds.toNat = 24 ∧ (∀ k, t.inByte k = 0) ∧ (∀ k, t.outByte k = 0) ∧
    t.pending = false ∧ t.busy = false ∧ t.err = false ∧ t.errCode = 0 ∧
    (∀ j < 32, (status t).getLsbD j = decide (j = 11 ∨ j = 12))

/-! ### Invariants -/

/-- Every step keeps the invariant: ROUNDS at most 24 (R26), BUSY equal to PENDING (R33), ERRCODE 0 when ERR = 0 and 1
to 5 when ERR = 1 (R30, R141), both buffers in canonical form: derived. -/
def Obligations.StepKeepsTheInvariant : Prop :=
  ∀ s t : State, s.Inv → step s = .next t → t.Inv

/-- The invariant holds right after reset. -/
def Obligations.ResetMeetsTheInvariant : Prop := State.reset.Inv

/-! ### Whole-machine rules -/

/-- From R23, R24 and R26: only completion, INIT, ABSORB, WIPE and reset change a lane, and only INIT, WIPE and reset change
ROUNDS: derived. -/
def Obligations.WritersOfLanesAndRounds : Prop :=
  ∀ s t : State, step s = .next t →
    (t.lanes ≠ s.lanes → (engineMoves s = true ∧ s.pending = true) ∨ ResetNow s ∨
      (s.busy = false ∧ ∃ i, CommandWritten i s ∧
        ((∃ nr, i = .init nr) ∨ (∃ len, i = .absorb len) ∨ i = .wipe))) ∧
    (t.rounds ≠ s.rounds → ResetNow s ∨
      (s.busy = false ∧ ∃ i, CommandWritten i s ∧ ((∃ nr, i = .init nr) ∨ i = .wipe)))

/-- From R27 and R28: only a host write into IN_BUF, WIPE and reset change IN_BUF; only EXTRACT, WIPE and reset change
OUT_BUF: derived. -/
def Obligations.WritersOfTheBuffers : Prop :=
  ∀ s t : State, step s = .next t →
    (t.inBuf ≠ s.inBuf → ResetNow s ∨ (s.busy = false ∧ CommandWritten .wipe s) ∨
      (engineMoves s = false ∧ ∃ off n v rest, s.queue = .write off n v :: rest ∧ off.toNat ≤ 0x0C7)) ∧
    (t.outBuf ≠ s.outBuf → ResetNow s ∨
      (s.busy = false ∧ ∃ i, CommandWritten i s ∧ ((∃ len, i = .extract len) ∨ i = .wipe)))

/-- R31: what sets BUSY, what clears it, and that nothing else writes it. BUSY = PENDING is an invariant
(`StepKeepsTheInvariant`). -/
def Obligations.WritersOfBusy : Prop :=
  (∀ s t : State, step s = .next t → s.busy = false → t.busy = true →
    ∃ i, CommandWritten i s ∧ ((∃ len, i = .absorb len ∧ len % 8 = 0 ∧ len ≤ 200) ∨ i = .permute)) ∧
  (∀ s t : State, step s = .next t → s.busy = true → t.busy = false →
    (engineMoves s = true ∧ s.pending = true) ∨ ResetNow s) ∧
  (∀ s t : State, s.busy = s.pending → engineMoves s = true → step s = .next t → t.busy = false) ∧
  (∀ s t : State, ResetNow s → step s = .next t → t.busy = false) ∧
  (∀ s : State, s.busy = false → ∃ t, exec .permute s = .next t ∧ t.busy = true) ∧
  (∀ (s : State) (len : Nat), s.busy = false → len % 8 = 0 → len ≤ 200 →
    ∃ t, exec (.absorb len) s = .next t ∧ t.busy = true) ∧
  (∀ (i : Instr) (s t : State), s.busy = false → exec i s = .next t → (∀ len, i ≠ .absorb len) → i ≠ .permute →
    t.busy = false) ∧
  (∀ (w : CmdWord) (s : State), RejectionCause w s → ∃ t, issue w s = .next t ∧ t.busy = s.busy) ∧
  (∀ (w : CmdWord) (s : State), s.busy = true → ∃ t, issue w s = .next t ∧ Rejected 5 s t)

/-- R32: ERR and ERRCODE are sticky. A rejected command records its code if ERR = 0 and leaves both if ERR = 1; only CLRERR,
WIPE and reset clear the record; an error does not block a later command; a bus error is a fault of the access and
leaves no next state in which STATUS could differ. -/
def Obligations.ErrorRecordIsSticky : Prop :=
  (∀ (w : CmdWord) (s : State),
    RejectionCause w s →
    ∃ t, issue w s = .next t ∧ t.err = true ∧
      t.errCode = if s.err then s.errCode else if s.busy then 5 else
        match decode w with
        | .error _ => 1
        | .ok (.init _) => 2
        | .ok (.absorb _) => 3
        | .ok _ => 4) ∧
  (∀ s t : State, step s = .next t → s.err = true → t.err = true → t.errCode = s.errCode) ∧
  (∀ s t : State, step s = .next t → s.err = true → t.err = false →
    ResetNow s ∨ (s.busy = false ∧ (CommandWritten .clrerr s ∨ CommandWritten .wipe s))) ∧
  (∀ s t : State, step s = .next t → s.err = false → t.err = true →
    engineMoves s = false ∧ ∃ v rest, s.queue = .write cmdOffset .w4 v :: rest) ∧
  (∀ (i : Instr) (s t : State) (code : BitVec 4), exec i s = .next t →
    ∃ u, exec i { s with err := true, errCode := code } = .next u ∧
      u.lanes = t.lanes ∧ u.rounds = t.rounds ∧ u.inBuf = t.inBuf ∧ u.outBuf = t.outBuf ∧
      u.pending = t.pending ∧ u.busy = t.busy) ∧
  (∀ (s : State) (off : BitVec 12) (n : Width) (rest : List HostOp), engineMoves s = false →
    (s.queue = .read off n :: rest → ¬ MapPermits off.toNat n.bytes .read →
      step s = .fault (.busError off n .read)) ∧
    (∀ v, s.queue = .write off n v :: rest → ¬ MapPermits off.toNat n.bytes .write →
      step s = .fault (.busError off n .write)))

/-! ### The host window -/

/-- R43: the accesses the table permits are performed, and every other access, a misaligned one among them, is a bus error
with no effect. -/
def Obligations.AddressMapDecidesEveryAccess : Prop :=
  ∀ (s : State) (off : BitVec 12) (n : Width) (rest : List HostOp), engineMoves s = false →
    (s.queue = .read off n :: rest →
      (MapPermits off.toNat n.bytes .read → ∃ t, step s = .next t) ∧
      (¬ MapPermits off.toNat n.bytes .read → step s = .fault (.busError off n .read))) ∧
    (∀ v, s.queue = .write off n v :: rest →
      (MapPermits off.toNat n.bytes .write → ∃ t, step s = .next t) ∧
      (¬ MapPermits off.toNat n.bytes .write → step s = .fault (.busError off n .write)))

/-- R46: IN_BUF writes store byte k of the value at off + k and change nothing else, and reads return the bytes
little-endian with no side effect, whatever BUSY and ERR are. -/
def Obligations.InBufAccesses : Prop :=
  (∀ (s : State) (off : BitVec 12) (n : Width) (v : BitVec 64) (rest : List HostOp),
    engineMoves s = false → s.queue = .write off n v :: rest → off.toNat ≤ 0x0C7 → off.toNat % n.bytes = 0 →
    ∃ t, step s = .next t ∧
      (s.inBuf.wf = true →
        (∀ k < n.bytes, ∀ j < 8, (t.inByte (off.toNat + k)).getLsbD j = v.getLsbD (8 * k + j)) ∧
        (∀ a, a < off.toNat ∨ off.toNat + n.bytes ≤ a → t.inByte a = s.inByte a)) ∧
      t.lanes = s.lanes ∧ t.rounds = s.rounds ∧ t.outBuf = s.outBuf ∧ t.pending = s.pending ∧ t.busy = s.busy ∧
      t.err = s.err ∧ t.errCode = s.errCode ∧ t.queue = rest ∧ t.replies = s.replies ∧ t.draws = s.draws ∧
      t.inst = s.inst) ∧
  (∀ (s : State) (off : BitVec 12) (n : Width) (rest : List HostOp),
    engineMoves s = false → s.queue = .read off n :: rest → off.toNat ≤ 0x0C7 → off.toNat % n.bytes = 0 →
    ∃ v, step s = .next { s with
        queue := rest, delay := s.delay - 1, replies := ⟨off, n, v⟩ :: s.replies } ∧
      ∀ j, v.getLsbD j = (decide (j < 8 * n.bytes) && (s.inByte (off.toNat + j / 8)).getLsbD (j % 8)))

/-- From R47: an OUT_BUF read returns the bytes little-endian, at any time and with no side effect. Which operations change
OUT_BUF is `WritersOfTheBuffers`: derived. -/
def Obligations.OutBufReads : Prop :=
  ∀ (s : State) (off : BitVec 12) (n : Width) (rest : List HostOp),
    engineMoves s = false → s.queue = .read off n :: rest →
    0x100 ≤ off.toNat → off.toNat ≤ 0x1C7 → off.toNat % n.bytes = 0 →
    ∃ v, step s = .next { s with
        queue := rest, delay := s.delay - 1, replies := ⟨off, n, v⟩ :: s.replies } ∧
      ∀ j, v.getLsbD j =
        (decide (j < 8 * n.bytes) && (s.outByte (off.toNat - 0x100 + j / 8)).getLsbD (j % 8))

/-- R48: a CMD write issues its word; a STATUS read returns the value of R30, with BUSY, ERR, ERRCODE and ROUNDS in their
bits and 0 elsewhere; no other access of a register is performed. -/
def Obligations.RegisterAccesses : Prop :=
  (∀ (s : State) (v : BitVec 64) (rest : List HostOp),
    engineMoves s = false → s.queue = .write 0x200 .w4 v :: rest →
    step s = issue (v.setWidth 32) { s with queue := rest, delay := s.delay - 1 }) ∧
  (∀ (s : State) (rest : List HostOp), engineMoves s = false → s.queue = .read 0x204 .w4 :: rest →
    ∃ v, step s = .next { s with
        queue := rest, delay := s.delay - 1, replies := ⟨0x204, .w4, v⟩ :: s.replies } ∧
      v.toNat = s.busy.toNat + 2 * s.err.toNat + 16 * s.errCode.toNat + 256 * s.rounds.toNat) ∧
  (∀ (s : State) (off : BitVec 12) (n : Width) (v : BitVec 64) (rest : List HostOp),
    engineMoves s = false → 0x200 ≤ off.toNat → off.toNat ≤ 0x207 →
    (s.queue = .write off n v :: rest → ¬ (off = 0x200 ∧ n = .w4) → step s = .fault (.busError off n .write)) ∧
    (s.queue = .read off n :: rest → ¬ (off = 0x204 ∧ n = .w4) → step s = .fault (.busError off n .read)))

/-- R44 and R41 (an inference the spec marks as its own): after EXTRACT 200 an 8-byte read of OUT_BUF at 0x100 + 8i
returns L[i] unchanged: derived. -/
def Obligations.ExtractedLaneReadsBackUnchanged : Prop :=
  ∀ (s : State) (i : Nat), s.busy = false → s.outBuf.wf = true → i < 25 →
    ∃ t u, exec (.extract 200) s = .next t ∧ busRead (BitVec.ofNat 12 (0x100 + 8 * i)) .w8 t = .next u ∧
      u.replies.head? = some ⟨BitVec.ofNat 12 (0x100 + 8 * i), .w8, s.lane i⟩

/-- R49 (b): reads are idempotent; a repeated read with no engine step in between returns the same value. No engine
step is in between when no permutation is pending, or the pending one is two or more operations away (the delay is
assumption 1): derived. -/
def Obligations.RepeatedReadReturnsTheSameValue : Prop :=
  ∀ (s : State) (off : BitVec 12) (n : Width) (rest : List HostOp),
    s.pending = false ∨ 2 ≤ s.delay → s.queue = .read off n :: .read off n :: rest →
    MapPermits off.toNat n.bytes .read →
    ∃ (t : State) (v : BitVec 64), Sys2Proof.core.run 2 s = .next t ∧
      t.replies = ⟨off, n, v⟩ :: ⟨off, n, v⟩ :: s.replies ∧
      t.queue = rest ∧ t.lanes = s.lanes ∧ t.inBuf = s.inBuf ∧ t.outBuf = s.outBuf ∧ status t = status s

/-- R42: the window of an instance: an access at host address BASE + off reaches offset off, for each of the 4096 offsets
and for no other address: derived. -/
def Obligations.WindowAddressesNameOffsets : Prop :=
  ∀ (inst addr : Nat) (off : BitVec 12),
    (windowOffset inst addr = some off ↔ addr = hostAddress inst off) ∧
    (windowOffset inst addr = none ↔ addr < Config.base inst ∨ Config.base inst + 4096 ≤ addr) ∧
    Config.base inst % 4096 = 0

/-- R150: instances share nothing. A step of one instance is a step of that engine and leaves every other as it is:
derived. -/
def Obligations.InstancesShareNothing : Prop :=
  ∀ (k : Nat) (p q : Platform), p.stepInstance k = .next q →
    q.engines.length = p.engines.length ∧
    (∀ j, j ≠ k → q.engines[j]? = p.engines[j]?) ∧
    (∀ s, p.engines[k]? = some s → ∃ t, step s = .next t ∧ q.engines[k]? = some t)

/-! ### The permutation -/

/-- From R112: θ bit by bit: each bit is XORed with the parity of column x - 1 and, from one bit position below, of column
x + 1. The corner cases, that θ fixes the zero and the all-ones state, are an inference R112 marks as its
own: derived. -/
def Obligations.ThetaBits : Prop :=
  (∀ (A : Lanes) (x y z : Nat), x < 5 → y < 5 → z < 64 →
    (laneOf (theta A) (x + 5 * y)).getLsbD z =
      ((laneOf A (x + 5 * y)).getLsbD z ^^
        ((List.range 5).foldl (fun b y' => b ^^ (laneOf A ((x + 4) % 5 + 5 * y')).getLsbD z) false) ^^
        ((List.range 5).foldl (fun b y' => b ^^ (laneOf A ((x + 1) % 5 + 5 * y')).getLsbD ((z + 63) % 64)) false))) ∧
  theta zeroLanes = zeroLanes ∧
  theta (lanesOf fun _ => BitVec.allOnes 64) = lanesOf fun _ => BitVec.allOnes 64

/-- From R113 and R114: ρ rotates each lane left by its offset of the table, and the table is the walk of FIPS 202 Algorithm 2
that R114 quotes. That ρ is a bijection on each lane and leaves lane 0 unchanged is an inference R113 marks as its own:
derived. -/
def Obligations.RhoRotatesByTheTable : Prop :=
  (∀ (A : Lanes) (i j : Nat), i < 25 → j < 64 →
    (laneOf (rho A) i).getLsbD j = (laneOf A i).getLsbD
      ((j + 64 - [0, 1, 62, 28, 27, 36, 44, 6, 55, 20, 3, 10, 43, 25, 39, 41, 45, 15, 21, 8, 18, 2, 61, 56,
        14].getD i 0) % 64)) ∧
  (∀ (A : Lanes) (t j : Nat), t < 24 → j < 64 →
    (laneOf (rho A) ((rhoWalk t).1 + 5 * (rhoWalk t).2)).getLsbD j =
      (laneOf A ((rhoWalk t).1 + 5 * (rhoWalk t).2)).getLsbD ((j + 64 - (t + 1) * (t + 2) / 2 % 64) % 64)) ∧
  (∀ A : Lanes, laneOf (rho A) 0 = laneOf A 0) ∧ Function.Bijective rho ∧
  (∀ (A B : Lanes) (i : Nat), i < 25 → laneOf (rho A) i = laneOf (rho B) i → laneOf A i = laneOf B i)

/-- From R115: π moves the lane at (x, y) to (y, (2x + 3y) mod 5), which in lane indices is the list of R115; it is a bijection
of the positions that fixes only (0, 0). The agreement of its two forms and the list are inferences R115 marks as its
own: derived. -/
def Obligations.PiMovesLanes : Prop :=
  (∀ (A : Lanes) (x y : Nat), x < 5 → y < 5 →
    laneOf (piStep A) (y + 5 * ((2 * x + 3 * y) % 5)) = laneOf A (x + 5 * y)) ∧
  (∀ (A : Lanes) (i : Nat), i < 25 →
    laneOf (piStep A) ([0, 10, 20, 5, 15, 16, 1, 11, 21, 6, 7, 17, 2, 12, 22, 23, 8, 18, 3, 13, 14, 24, 9, 19,
      4].getD i 0) = laneOf A i) ∧
  (∀ (A : Lanes) (x y : Nat), x < 5 → y < 5 →
    laneOf (piStep A) (x + 5 * y) = laneOf A ((x + 3 * y) % 5 + 5 * x)) ∧
  (∀ x y : Nat, x < 5 → y < 5 → ((y = x ∧ (2 * x + 3 * y) % 5 = y) ↔ (x = 0 ∧ y = 0))) ∧
  (∀ x y u v : Nat, x < 5 → y < 5 → u < 5 → v < 5 →
    y = v → (2 * x + 3 * y) % 5 = (2 * u + 3 * v) % 5 → x = u ∧ y = v) ∧
  Function.Bijective piStep

/-- R116: χ bit by bit, from the input lanes alone; χ fixes the zero and the all-ones state and is a bijection, row by row. -/
def Obligations.ChiBits : Prop :=
  (∀ (A : Lanes) (x y z : Nat), x < 5 → y < 5 → z < 64 →
    (laneOf (chi A) (x + 5 * y)).getLsbD z =
      ((laneOf A (x + 5 * y)).getLsbD z ^^
        (!(laneOf A ((x + 1) % 5 + 5 * y)).getLsbD z && (laneOf A ((x + 2) % 5 + 5 * y)).getLsbD z))) ∧
  chi zeroLanes = zeroLanes ∧
  chi (lanesOf fun _ => BitVec.allOnes 64) = (lanesOf fun _ => BitVec.allOnes 64) ∧
  Function.Bijective chi ∧
  (∀ (A B : Lanes) (y : Nat), y < 5 → (∀ x < 5, laneOf (chi A) (x + 5 * y) = laneOf (chi B) (x + 5 * y)) →
    ∀ x < 5, laneOf A (x + 5 * y) = laneOf B (x + 5 * y))

/-- R117 and R118: ι XORs lane 0 with RC[ir] and leaves the others. The list is the table of R118, row by row, as (ir, RC[ir]);
bit 2^j - 1 of RC[ir] is rc(j + 7 ir) of the LFSR that R118 quotes and every other bit is 0. -/
def Obligations.IotaAddsTheRoundConstant : Prop :=
  ∀ (A : Lanes) (ir : Nat), ir < 24 →
    (∀ i < 25, i ≠ 0 → laneOf (iota A ir) i = laneOf A i) ∧
    (∃ c : Lane, List.lookup ir
      [(0, 0x0000000000000001), (12, 0x000000008000808B),
       (1, 0x0000000000008082), (13, 0x800000000000008B),
       (2, 0x800000000000808A), (14, 0x8000000000008089),
       (3, 0x8000000080008000), (15, 0x8000000000008003),
       (4, 0x000000000000808B), (16, 0x8000000000008002),
       (5, 0x0000000080000001), (17, 0x8000000000000080),
       (6, 0x8000000080008081), (18, 0x000000000000800A),
       (7, 0x8000000000008009), (19, 0x800000008000000A),
       (8, 0x000000000000008A), (20, 0x8000000080008081),
       (9, 0x0000000000000088), (21, 0x8000000000008080),
       (10, 0x0000000080008009), (22, 0x0000000080000001),
       (11, 0x000000008000000A), (23, 0x8000000080008008)] = some c ∧
      laneOf (iota A ir) 0 = laneOf A 0 ^^^ c) ∧
    (∀ j < 7, (laneOf (iota A ir) 0).getLsbD (2 ^ j - 1) =
      ((laneOf A 0).getLsbD (2 ^ j - 1) ^^ rcBit (j + 7 * ir))) ∧
    (∀ z < 64, (∀ j < 7, z ≠ 2 ^ j - 1) → (laneOf (iota A ir) 0).getLsbD z = (laneOf A 0).getLsbD z)

/-- R110 and R111: KeccakP(nr) runs the rounds 24 - nr to 23 in ascending order, each the five steps in their order, none
when nr = 0, so a reduced-round permutation is the last nr rounds of the 24-round one. -/
def Obligations.KeccakPRunsTheLastRounds : Prop :=
  ∀ (nr : Nat) (A : Lanes), nr ≤ 24 →
    keccakP nr A = ((List.range nr).map fun k => 24 - nr + k).foldl
      (fun B ir => iota (chi (piStep (rho (theta B)))) ir) A ∧
    keccakP 0 A = A ∧
    keccakP 24 A = keccakP nr ((List.range (24 - nr)).foldl (fun B ir => keccakRound B ir) A)

/-- R122 (an inference the spec marks as its own): ρ and π fused, the offset taken at the source position: derived. -/
def Obligations.RhoThenPiFused : Prop :=
  ∀ (A : Lanes) (x y : Nat), x < 5 → y < 5 →
    laneOf (piStep (rho A)) (y + 5 * ((2 * x + 3 * y) % 5)) =
      rotl64 (laneOf A (x + 5 * y)) (rhoOffset (x + 5 * y))

/-- R121: every step of the round and every KeccakP(nr, ·) is a bijection on the 1600-bit states. -/
def Obligations.KeccakPIsABijection : Prop :=
  Function.Bijective theta ∧ Function.Bijective rho ∧ Function.Bijective piStep ∧ Function.Bijective chi ∧
  (∀ ir < 24, Function.Bijective fun A => iota A ir) ∧ (∀ nr ≤ 24, Function.Bijective (keccakP nr))

/-! ### Waiting and absorbing -/

/-- R165: a WAIT ends, whatever the delay of the completion: it takes the host to the operations after it with BUSY = 0,
the lanes permuted once if a permutation was pending, and a last STATUS value read that shows BUSY = 0. The bound by
the delay, and that no reset and no other master's access falls between two polls of the WAIT, are the model's
(assumptions 1, 3 and 18): derived. -/
def Obligations.WaitEnds : Prop :=
  ∀ (s : State) (rest : List HostOp), s.Inv → s.queue = .wait :: rest →
    ∃ (n : Nat) (t : State), n ≤ s.delay + 2 ∧ Sys2Proof.core.run n s = .next t ∧ t.queue = rest ∧ t.busy = false ∧
      t.lanes = (if s.pending then keccakP s.rounds.toNat s.lanes else s.lanes) ∧
      t.rounds = s.rounds ∧ t.inBuf = s.inBuf ∧ t.outBuf = s.outBuf ∧ t.err = s.err ∧ t.errCode = s.errCode ∧
      t.draws = s.draws ∧ t.inst = s.inst ∧ ∃ v, lastStatusRead t = some v ∧ v.getLsbD 0 = false

/-- R91 (an inference the spec marks as its own): the absorb phase. A host that loads each block and absorbs it with
ABSORBW reaches S_j = KeccakP(nr, S_(j-1) ^ pad(B_j)), whatever the delays of the completions. That each block is loaded
by one `SB` per byte, and that no reset and no other master's access falls between two polls of a WAIT, are the model's
(assumptions 19, 3 and 18): derived. -/
def Obligations.AbsorbPhaseComputesTheRecurrence : Prop :=
  ∀ (r : Nat) (blocks : List (List Byte)) (s : State) (rest : List HostOp),
    r % 8 = 0 → r ≤ 200 → (∀ B ∈ blocks, B.length = r) → s.Inv → s.busy = false →
    s.queue = blocks.flatMap (fun B => loadBlk B ++ absorbW r) ++ rest →
    ∃ (n : Nat) (t : State), Sys2Proof.core.run n s = .next t ∧ t.queue = rest ∧ t.busy = false ∧
      t.lanes = blocks.foldl (fun S B => keccakP s.rounds.toNat (xorLanes S (padLanes B))) s.lanes ∧
      t.rounds = s.rounds ∧ t.outBuf = s.outBuf ∧ t.err = s.err ∧ t.errCode = s.errCode

/-- R96 and R163: a host that waits after every ABSORB and PERMUTE before its next CMD write goes on doing so, and no step
of such a host records code 5. Which hosts wait is the model's `waitsBeforeCommands` (assumption 21): derived. -/
def Obligations.WaitingHostIsNeverRejectedAsBusy : Prop :=
  ∀ s t : State, s.Inv → waitsBeforeCommands s.busy s.queue = true → step s = .next t →
    waitsBeforeCommands t.busy t.queue = true ∧ (t.errCode = 5 → s.errCode = 5)
end

