-- ==== Sys2Proof/Laws/State.lean ====
section
/-! SUPPORT. One lemma per field per update of the state, so that no proof unfolds a record update. -/

namespace Sys2Proof.Machine

variable (s : State)

/-! ### `State.setLanes` -/

@[simp] theorem State.setLanes_lanes (A : Lanes) : (s.setLanes A).lanes = A := rfl
@[simp] theorem State.setLanes_rounds (A : Lanes) : (s.setLanes A).rounds = s.rounds := rfl
@[simp] theorem State.setLanes_inBuf (A : Lanes) : (s.setLanes A).inBuf = s.inBuf := rfl
@[simp] theorem State.setLanes_outBuf (A : Lanes) : (s.setLanes A).outBuf = s.outBuf := rfl
@[simp] theorem State.setLanes_pending (A : Lanes) : (s.setLanes A).pending = s.pending := rfl
@[simp] theorem State.setLanes_busy (A : Lanes) : (s.setLanes A).busy = s.busy := rfl
@[simp] theorem State.setLanes_err (A : Lanes) : (s.setLanes A).err = s.err := rfl
@[simp] theorem State.setLanes_errCode (A : Lanes) : (s.setLanes A).errCode = s.errCode := rfl
@[simp] theorem State.setLanes_queue (A : Lanes) : (s.setLanes A).queue = s.queue := rfl
@[simp] theorem State.setLanes_replies (A : Lanes) : (s.setLanes A).replies = s.replies := rfl
@[simp] theorem State.setLanes_delay (A : Lanes) : (s.setLanes A).delay = s.delay := rfl
@[simp] theorem State.setLanes_draws (A : Lanes) : (s.setLanes A).draws = s.draws := rfl
@[simp] theorem State.setLanes_inst (A : Lanes) : (s.setLanes A).inst = s.inst := rfl

/-! ### `State.setRounds` -/

@[simp] theorem State.setRounds_lanes (nr : BitVec 5) : (s.setRounds nr).lanes = s.lanes := rfl
@[simp] theorem State.setRounds_rounds (nr : BitVec 5) : (s.setRounds nr).rounds = nr := rfl
@[simp] theorem State.setRounds_inBuf (nr : BitVec 5) : (s.setRounds nr).inBuf = s.inBuf := rfl
@[simp] theorem State.setRounds_outBuf (nr : BitVec 5) : (s.setRounds nr).outBuf = s.outBuf := rfl
@[simp] theorem State.setRounds_pending (nr : BitVec 5) : (s.setRounds nr).pending = s.pending := rfl
@[simp] theorem State.setRounds_busy (nr : BitVec 5) : (s.setRounds nr).busy = s.busy := rfl
@[simp] theorem State.setRounds_err (nr : BitVec 5) : (s.setRounds nr).err = s.err := rfl
@[simp] theorem State.setRounds_errCode (nr : BitVec 5) : (s.setRounds nr).errCode = s.errCode := rfl
@[simp] theorem State.setRounds_queue (nr : BitVec 5) : (s.setRounds nr).queue = s.queue := rfl
@[simp] theorem State.setRounds_replies (nr : BitVec 5) : (s.setRounds nr).replies = s.replies := rfl
@[simp] theorem State.setRounds_delay (nr : BitVec 5) : (s.setRounds nr).delay = s.delay := rfl
@[simp] theorem State.setRounds_draws (nr : BitVec 5) : (s.setRounds nr).draws = s.draws := rfl
@[simp] theorem State.setRounds_inst (nr : BitVec 5) : (s.setRounds nr).inst = s.inst := rfl

/-! ### `State.setInBuf` -/

@[simp] theorem State.setInBuf_lanes (m : Memory) : (s.setInBuf m).lanes = s.lanes := rfl
@[simp] theorem State.setInBuf_rounds (m : Memory) : (s.setInBuf m).rounds = s.rounds := rfl
@[simp] theorem State.setInBuf_inBuf (m : Memory) : (s.setInBuf m).inBuf = m := rfl
@[simp] theorem State.setInBuf_outBuf (m : Memory) : (s.setInBuf m).outBuf = s.outBuf := rfl
@[simp] theorem State.setInBuf_pending (m : Memory) : (s.setInBuf m).pending = s.pending := rfl
@[simp] theorem State.setInBuf_busy (m : Memory) : (s.setInBuf m).busy = s.busy := rfl
@[simp] theorem State.setInBuf_err (m : Memory) : (s.setInBuf m).err = s.err := rfl
@[simp] theorem State.setInBuf_errCode (m : Memory) : (s.setInBuf m).errCode = s.errCode := rfl
@[simp] theorem State.setInBuf_queue (m : Memory) : (s.setInBuf m).queue = s.queue := rfl
@[simp] theorem State.setInBuf_replies (m : Memory) : (s.setInBuf m).replies = s.replies := rfl
@[simp] theorem State.setInBuf_delay (m : Memory) : (s.setInBuf m).delay = s.delay := rfl
@[simp] theorem State.setInBuf_draws (m : Memory) : (s.setInBuf m).draws = s.draws := rfl
@[simp] theorem State.setInBuf_inst (m : Memory) : (s.setInBuf m).inst = s.inst := rfl

/-! ### `State.setOutBuf` -/

@[simp] theorem State.setOutBuf_lanes (m : Memory) : (s.setOutBuf m).lanes = s.lanes := rfl
@[simp] theorem State.setOutBuf_rounds (m : Memory) : (s.setOutBuf m).rounds = s.rounds := rfl
@[simp] theorem State.setOutBuf_inBuf (m : Memory) : (s.setOutBuf m).inBuf = s.inBuf := rfl
@[simp] theorem State.setOutBuf_outBuf (m : Memory) : (s.setOutBuf m).outBuf = m := rfl
@[simp] theorem State.setOutBuf_pending (m : Memory) : (s.setOutBuf m).pending = s.pending := rfl
@[simp] theorem State.setOutBuf_busy (m : Memory) : (s.setOutBuf m).busy = s.busy := rfl
@[simp] theorem State.setOutBuf_err (m : Memory) : (s.setOutBuf m).err = s.err := rfl
@[simp] theorem State.setOutBuf_errCode (m : Memory) : (s.setOutBuf m).errCode = s.errCode := rfl
@[simp] theorem State.setOutBuf_queue (m : Memory) : (s.setOutBuf m).queue = s.queue := rfl
@[simp] theorem State.setOutBuf_replies (m : Memory) : (s.setOutBuf m).replies = s.replies := rfl
@[simp] theorem State.setOutBuf_delay (m : Memory) : (s.setOutBuf m).delay = s.delay := rfl
@[simp] theorem State.setOutBuf_draws (m : Memory) : (s.setOutBuf m).draws = s.draws := rfl
@[simp] theorem State.setOutBuf_inst (m : Memory) : (s.setOutBuf m).inst = s.inst := rfl

/-! ### `State.setErr` -/

@[simp] theorem State.setErr_lanes (b : Bool) (c : BitVec 4) : (s.setErr b c).lanes = s.lanes := rfl
@[simp] theorem State.setErr_rounds (b : Bool) (c : BitVec 4) : (s.setErr b c).rounds = s.rounds := rfl
@[simp] theorem State.setErr_inBuf (b : Bool) (c : BitVec 4) : (s.setErr b c).inBuf = s.inBuf := rfl
@[simp] theorem State.setErr_outBuf (b : Bool) (c : BitVec 4) : (s.setErr b c).outBuf = s.outBuf := rfl
@[simp] theorem State.setErr_pending (b : Bool) (c : BitVec 4) : (s.setErr b c).pending = s.pending := rfl
@[simp] theorem State.setErr_busy (b : Bool) (c : BitVec 4) : (s.setErr b c).busy = s.busy := rfl
@[simp] theorem State.setErr_err (b : Bool) (c : BitVec 4) : (s.setErr b c).err = b := rfl
@[simp] theorem State.setErr_errCode (b : Bool) (c : BitVec 4) : (s.setErr b c).errCode = c := rfl
@[simp] theorem State.setErr_queue (b : Bool) (c : BitVec 4) : (s.setErr b c).queue = s.queue := rfl
@[simp] theorem State.setErr_replies (b : Bool) (c : BitVec 4) : (s.setErr b c).replies = s.replies := rfl
@[simp] theorem State.setErr_delay (b : Bool) (c : BitVec 4) : (s.setErr b c).delay = s.delay := rfl
@[simp] theorem State.setErr_draws (b : Bool) (c : BitVec 4) : (s.setErr b c).draws = s.draws := rfl
@[simp] theorem State.setErr_inst (b : Bool) (c : BitVec 4) : (s.setErr b c).inst = s.inst := rfl

/-! ### `State.startPermutation` -/

@[simp] theorem State.startPermutation_lanes : (s.startPermutation).lanes = s.lanes := rfl
@[simp] theorem State.startPermutation_rounds : (s.startPermutation).rounds = s.rounds := rfl
@[simp] theorem State.startPermutation_inBuf : (s.startPermutation).inBuf = s.inBuf := rfl
@[simp] theorem State.startPermutation_outBuf : (s.startPermutation).outBuf = s.outBuf := rfl
@[simp] theorem State.startPermutation_pending : (s.startPermutation).pending = true := rfl
@[simp] theorem State.startPermutation_busy : (s.startPermutation).busy = true := rfl
@[simp] theorem State.startPermutation_err : (s.startPermutation).err = s.err := rfl
@[simp] theorem State.startPermutation_errCode : (s.startPermutation).errCode = s.errCode := rfl
@[simp] theorem State.startPermutation_queue : (s.startPermutation).queue = s.queue := rfl
@[simp] theorem State.startPermutation_replies : (s.startPermutation).replies = s.replies := rfl
@[simp] theorem State.startPermutation_delay : (s.startPermutation).delay = Config.latency s.inst s.draws := rfl
@[simp] theorem State.startPermutation_draws : (s.startPermutation).draws = s.draws + 1 := rfl
@[simp] theorem State.startPermutation_inst : (s.startPermutation).inst = s.inst := rfl

/-! ### `State.endPermutation` -/

@[simp] theorem State.endPermutation_lanes : (s.endPermutation).lanes = s.lanes := rfl
@[simp] theorem State.endPermutation_rounds : (s.endPermutation).rounds = s.rounds := rfl
@[simp] theorem State.endPermutation_inBuf : (s.endPermutation).inBuf = s.inBuf := rfl
@[simp] theorem State.endPermutation_outBuf : (s.endPermutation).outBuf = s.outBuf := rfl
@[simp] theorem State.endPermutation_pending : (s.endPermutation).pending = false := rfl
@[simp] theorem State.endPermutation_busy : (s.endPermutation).busy = false := rfl
@[simp] theorem State.endPermutation_err : (s.endPermutation).err = s.err := rfl
@[simp] theorem State.endPermutation_errCode : (s.endPermutation).errCode = s.errCode := rfl
@[simp] theorem State.endPermutation_queue : (s.endPermutation).queue = s.queue := rfl
@[simp] theorem State.endPermutation_replies : (s.endPermutation).replies = s.replies := rfl
@[simp] theorem State.endPermutation_delay : (s.endPermutation).delay = 0 := rfl
@[simp] theorem State.endPermutation_draws : (s.endPermutation).draws = s.draws := rfl
@[simp] theorem State.endPermutation_inst : (s.endPermutation).inst = s.inst := rfl

/-! ### `State.setQueue` -/

@[simp] theorem State.setQueue_lanes (q : List HostOp) : (s.setQueue q).lanes = s.lanes := rfl
@[simp] theorem State.setQueue_rounds (q : List HostOp) : (s.setQueue q).rounds = s.rounds := rfl
@[simp] theorem State.setQueue_inBuf (q : List HostOp) : (s.setQueue q).inBuf = s.inBuf := rfl
@[simp] theorem State.setQueue_outBuf (q : List HostOp) : (s.setQueue q).outBuf = s.outBuf := rfl
@[simp] theorem State.setQueue_pending (q : List HostOp) : (s.setQueue q).pending = s.pending := rfl
@[simp] theorem State.setQueue_busy (q : List HostOp) : (s.setQueue q).busy = s.busy := rfl
@[simp] theorem State.setQueue_err (q : List HostOp) : (s.setQueue q).err = s.err := rfl
@[simp] theorem State.setQueue_errCode (q : List HostOp) : (s.setQueue q).errCode = s.errCode := rfl
@[simp] theorem State.setQueue_queue (q : List HostOp) : (s.setQueue q).queue = q := rfl
@[simp] theorem State.setQueue_replies (q : List HostOp) : (s.setQueue q).replies = s.replies := rfl
@[simp] theorem State.setQueue_delay (q : List HostOp) : (s.setQueue q).delay = s.delay := rfl
@[simp] theorem State.setQueue_draws (q : List HostOp) : (s.setQueue q).draws = s.draws := rfl
@[simp] theorem State.setQueue_inst (q : List HostOp) : (s.setQueue q).inst = s.inst := rfl

/-! ### `State.addReply` -/

@[simp] theorem State.addReply_lanes (r : ReadReply) : (s.addReply r).lanes = s.lanes := rfl
@[simp] theorem State.addReply_rounds (r : ReadReply) : (s.addReply r).rounds = s.rounds := rfl
@[simp] theorem State.addReply_inBuf (r : ReadReply) : (s.addReply r).inBuf = s.inBuf := rfl
@[simp] theorem State.addReply_outBuf (r : ReadReply) : (s.addReply r).outBuf = s.outBuf := rfl
@[simp] theorem State.addReply_pending (r : ReadReply) : (s.addReply r).pending = s.pending := rfl
@[simp] theorem State.addReply_busy (r : ReadReply) : (s.addReply r).busy = s.busy := rfl
@[simp] theorem State.addReply_err (r : ReadReply) : (s.addReply r).err = s.err := rfl
@[simp] theorem State.addReply_errCode (r : ReadReply) : (s.addReply r).errCode = s.errCode := rfl
@[simp] theorem State.addReply_queue (r : ReadReply) : (s.addReply r).queue = s.queue := rfl
@[simp] theorem State.addReply_replies (r : ReadReply) : (s.addReply r).replies = r :: s.replies := rfl
@[simp] theorem State.addReply_delay (r : ReadReply) : (s.addReply r).delay = s.delay := rfl
@[simp] theorem State.addReply_draws (r : ReadReply) : (s.addReply r).draws = s.draws := rfl
@[simp] theorem State.addReply_inst (r : ReadReply) : (s.addReply r).inst = s.inst := rfl

/-! ### `State.takeOp` -/

@[simp] theorem State.takeOp_lanes (q : List HostOp) : (s.takeOp q).lanes = s.lanes := rfl
@[simp] theorem State.takeOp_rounds (q : List HostOp) : (s.takeOp q).rounds = s.rounds := rfl
@[simp] theorem State.takeOp_inBuf (q : List HostOp) : (s.takeOp q).inBuf = s.inBuf := rfl
@[simp] theorem State.takeOp_outBuf (q : List HostOp) : (s.takeOp q).outBuf = s.outBuf := rfl
@[simp] theorem State.takeOp_pending (q : List HostOp) : (s.takeOp q).pending = s.pending := rfl
@[simp] theorem State.takeOp_busy (q : List HostOp) : (s.takeOp q).busy = s.busy := rfl
@[simp] theorem State.takeOp_err (q : List HostOp) : (s.takeOp q).err = s.err := rfl
@[simp] theorem State.takeOp_errCode (q : List HostOp) : (s.takeOp q).errCode = s.errCode := rfl
@[simp] theorem State.takeOp_queue (q : List HostOp) : (s.takeOp q).queue = q := rfl
@[simp] theorem State.takeOp_replies (q : List HostOp) : (s.takeOp q).replies = s.replies := rfl
@[simp] theorem State.takeOp_delay (q : List HostOp) : (s.takeOp q).delay = s.delay - 1 := rfl
@[simp] theorem State.takeOp_draws (q : List HostOp) : (s.takeOp q).draws = s.draws := rfl
@[simp] theorem State.takeOp_inst (q : List HostOp) : (s.takeOp q).inst = s.inst := rfl

/-! ### `State.resetEngine` -/

@[simp] theorem State.resetEngine_lanes : (s.resetEngine).lanes = zeroLanes := rfl
@[simp] theorem State.resetEngine_rounds : (s.resetEngine).rounds = 24 := rfl
@[simp] theorem State.resetEngine_inBuf : (s.resetEngine).inBuf = [] := rfl
@[simp] theorem State.resetEngine_outBuf : (s.resetEngine).outBuf = [] := rfl
@[simp] theorem State.resetEngine_pending : (s.resetEngine).pending = false := rfl
@[simp] theorem State.resetEngine_busy : (s.resetEngine).busy = false := rfl
@[simp] theorem State.resetEngine_err : (s.resetEngine).err = false := rfl
@[simp] theorem State.resetEngine_errCode : (s.resetEngine).errCode = 0 := rfl
@[simp] theorem State.resetEngine_queue : (s.resetEngine).queue = s.queue := rfl
@[simp] theorem State.resetEngine_replies : (s.resetEngine).replies = s.replies := rfl
@[simp] theorem State.resetEngine_delay : (s.resetEngine).delay = 0 := rfl
@[simp] theorem State.resetEngine_draws : (s.resetEngine).draws = s.draws := rfl
@[simp] theorem State.resetEngine_inst : (s.resetEngine).inst = s.inst := rfl

end Sys2Proof.Machine
end

