-- ==== Sys2Proof/Laws/Commands.lean ====
section
/-! SUPPORT. What a command can do: the shared operations of a command, said once, and each meaning in terms of
them. -/

namespace Sys2Proof.Machine

/-! ### Command errors -/

/-- Recording an error changes at most ERR and ERRCODE (R142). -/
theorem cmdError_eq (e : CmdError) (s : State) :
    cmdError e s = s.setErr true (if s.err then s.errCode else errorCode e) := by
  rw [cmdError]
  split
  · next h => cases s; simp_all [State.setErr]
  · rfl

/-- A command always answers a next state, one of three (R80, R143). -/
theorem runCommand_eq (bad : Option CmdError) (effect : State → State) (s : State) :
    runCommand bad effect s =
      .next (if s.busy then cmdError .cmdWhileBusy s
        else match bad with
          | some e => cmdError e s
          | none => effect s) := by
  cases bad <;> unfold runCommand <;> split <;> rfl

theorem runCommand_busy {bad : Option CmdError} {effect : State → State} {s : State} (h : s.busy = true) :
    runCommand bad effect s = .next (cmdError .cmdWhileBusy s) := by
  unfold runCommand
  rw [if_pos h]

theorem runCommand_bad {e : CmdError} {effect : State → State} {s : State} (h : s.busy = false) :
    runCommand (some e) effect s = .next (cmdError e s) := by
  rw [runCommand, if_neg (by simp [h])]

theorem runCommand_ok {effect : State → State} {s : State} (h : s.busy = false) :
    runCommand none effect s = .next (effect s) := by
  rw [runCommand, if_neg (by simp [h])]

/-- The inversion of `runCommand`: a busy rejection, an operand rejection, or the effect. -/
theorem runCommand_cases {bad : Option CmdError} {effect : State → State} {s t : State}
    (h : runCommand bad effect s = .next t) :
    (s.busy = true ∧ t = cmdError .cmdWhileBusy s) ∨
    (s.busy = false ∧ ∃ e, bad = some e ∧ t = cmdError e s) ∨
    (s.busy = false ∧ bad = none ∧ t = effect s) := by
  cases hb : s.busy with
  | true => rw [runCommand_busy hb] at h; cases h; exact .inl ⟨rfl, rfl⟩
  | false =>
    cases bad with
    | some e => rw [runCommand_bad hb] at h; cases h; exact .inr (.inl ⟨rfl, e, rfl, rfl⟩)
    | none => rw [runCommand_ok hb] at h; cases h; exact .inr (.inr ⟨rfl, rfl, rfl⟩)

/-! ### The meanings -/

/-- The operand check of a command (R64). -/
def operandError : Instr → Option CmdError
  | .init nr => roundsError nr
  | .absorb len => absorbError len
  | .permute => none
  | .extract len => extractError len
  | .wipe => none
  | .clrerr => none

/-- The effect of an accepted command at issue (R81 to R87). -/
def commandEffect : Instr → State → State
  | .init nr => initEffect nr
  | .absorb len => absorbEffect len
  | .permute => permuteEffect
  | .extract len => extractEffect len
  | .wipe => wipeEffect
  | .clrerr => clrerrEffect

/-- Every meaning is the shared execution of a command with its own operand check and effect. -/
theorem exec_eq (i : Instr) (s : State) : exec i s = runCommand (operandError i) (commandEffect i) s := by
  cases i <;> rfl

theorem issue_ok {w : CmdWord} {i : Instr} {s : State} (h : decode w = .ok i) : issue w s = exec i s := by
  rw [issue, h]

theorem issue_error {w : CmdWord} {e : Illegal} {s : State} (h : decode w = .error e) :
    issue w s = runCommand (some .illegalCmd) id s := by
  rw [issue, h]; rfl

/-- What a command write can do: a busy rejection, an illegal word, an operand rejection, or the effect of the decoded
command. -/
theorem issue_cases {w : CmdWord} {s t : State} (h : issue w s = .next t) :
    (s.busy = true ∧ t = cmdError .cmdWhileBusy s) ∨
    (s.busy = false ∧ (∃ e, decode w = .error e) ∧ t = cmdError .illegalCmd s) ∨
    (s.busy = false ∧ ∃ i e, decode w = .ok i ∧ operandError i = some e ∧ t = cmdError e s) ∨
    (s.busy = false ∧ ∃ i, decode w = .ok i ∧ operandError i = none ∧ t = commandEffect i s) := by
  cases hd : decode w with
  | error e =>
    rw [issue_error hd] at h
    rcases runCommand_cases h with h | ⟨hb, e', he, ht⟩ | ⟨_, h, _⟩
    · exact .inl h
    · cases he; exact .inr (.inl ⟨hb, ⟨e, rfl⟩, ht⟩)
    · cases h
  | ok i =>
    rw [issue_ok hd, exec_eq] at h
    rcases runCommand_cases h with h | ⟨hb, e, he, ht⟩ | ⟨hb, he, ht⟩
    · exact .inl h
    · exact .inr (.inr (.inl ⟨hb, i, e, rfl, he, ht⟩))
    · exact .inr (.inr (.inr ⟨hb, i, rfl, he, ht⟩))

/-- A command write never stops the machine. -/
theorem issue_next (w : CmdWord) (s : State) : ∃ t, issue w s = .next t := by
  cases hd : decode w with
  | error e => exact ⟨_, (issue_error hd).trans (runCommand_eq ..)⟩
  | ok i => exact ⟨_, (issue_ok hd).trans ((exec_eq i s).trans (runCommand_eq ..))⟩

/-! ### Completion -/

theorem complete_next {s : State} (h : s.rounds.toNat ≤ 24) :
    complete s = .next (s.setLanes (keccakP s.rounds.toNat s.lanes)).endPermutation := by
  rw [complete, if_pos h]

/-- If a completion answers a next state, ROUNDS was legal and the lanes were permuted. -/
theorem complete_cases {s t : State} (h : complete s = .next t) :
    s.rounds.toNat ≤ 24 ∧ t = (s.setLanes (keccakP s.rounds.toNat s.lanes)).endPermutation := by
  rw [complete] at h
  split at h
  · next hr => cases h; exact ⟨hr, rfl⟩
  · cases h

end Sys2Proof.Machine
end

