-- ==== Sys2Proof/Laws/PerInstr.lean ====
section
/-! SUPPORT. A property of every command word, per constructor: the fields of the word that `encode` gives. -/

namespace Sys2Proof.Laws.EncodedFields

/-- The fields of an encoded well-formed command: its OP and ARG, and both reserved fields 0 (R60, R61). -/
def Statement (i : Instr) : Prop :=
  i.WellFormed → opField (encode i) = i.opcode ∧ argField (encode i) = i.arg ∧
    rsv0Field (encode i) = 0 ∧ rsv1Field (encode i) = 0

theorem toNat_word {arg op : Nat} (ha : arg < 256) (ho : op < 16) :
    (BitVec.ofNat 32 arg <<< 8 ||| BitVec.ofNat 32 op).toNat = arg * 256 + op := by
  rw [BitVec.toNat_or, BitVec.toNat_shiftLeft, BitVec.toNat_ofNat, BitVec.toNat_ofNat,
    Nat.mod_eq_of_lt (by omega : arg < 2 ^ 32), Nat.mod_eq_of_lt (by omega : op < 2 ^ 32), Nat.shiftLeft_eq,
    Nat.mod_eq_of_lt (by omega : arg * 2 ^ 8 < 2 ^ 32), Nat.mul_comm, Nat.two_pow_add_eq_or_of_lt (by omega) arg |>.symm]
  omega

theorem fields {arg op : Nat} (ha : arg < 256) (ho : op < 16) :
    let w := BitVec.ofNat 32 arg <<< 8 ||| BitVec.ofNat 32 op
    opField w = op ∧ argField w = arg ∧ rsv0Field w = 0 ∧ rsv1Field w = 0 := by
  simp only [opField, argField, rsv0Field, rsv1Field, BitVec.extractLsb'_toNat, toNat_word ha ho,
    Nat.shiftRight_eq_div_pow]
  omega

theorem init (nr : Nat) : Statement (.init nr) :=
  fun h => fields (arg := nr) (op := 1) (of_decide_eq_true h) (by decide)

theorem absorb (len : Nat) : Statement (.absorb len) :=
  fun h => fields (arg := len) (op := 2) (of_decide_eq_true h) (by decide)

theorem permute : Statement .permute := fun _ => fields (arg := 0) (op := 3) (by decide) (by decide)

theorem extract (len : Nat) : Statement (.extract len) :=
  fun h => fields (arg := len) (op := 4) (of_decide_eq_true h) (by decide)

theorem wipe : Statement .wipe := fun _ => fields (arg := 0) (op := 5) (by decide) (by decide)

theorem clrerr : Statement .clrerr := fun _ => fields (arg := 0) (op := 6) (by decide) (by decide)

end Sys2Proof.Laws.EncodedFields
end

