-- ==== Sys2Proof/Laws/Decode.lean ====
section
/-! SUPPORT. The fields of a command word as numbers, and the decoder by fields. -/

namespace Sys2Proof

theorem opField_eq (w : CmdWord) : opField w = w.toNat % 16 := by
  simp [opField, BitVec.extractLsb'_toNat]

theorem rsv0Field_eq (w : CmdWord) : rsv0Field w = w.toNat / 16 % 16 := by
  simp [rsv0Field, BitVec.extractLsb'_toNat, Nat.shiftRight_eq_div_pow]

theorem argField_eq (w : CmdWord) : argField w = w.toNat / 256 % 256 := by
  simp [argField, BitVec.extractLsb'_toNat, Nat.shiftRight_eq_div_pow]

theorem rsv1Field_eq (w : CmdWord) : rsv1Field w = w.toNat / 65536 := by
  have := w.isLt
  rw [rsv1Field, BitVec.extractLsb'_toNat, Nat.shiftRight_eq_div_pow, Nat.mod_eq_of_lt (by omega)]

/-- A word with a reserved field that is not 0 is illegal (R63 (b), (c)). -/
theorem decode_reserved {w : CmdWord} (h : rsv0Field w ≠ 0 ∨ rsv1Field w ≠ 0) : ∃ e, decode w = .error e := by
  unfold decode
  by_cases h0 : rsv0Field w = 0
  · rw [if_neg (by simpa using h0), if_pos (by simpa [h0] using h)]; exact ⟨_, rfl⟩
  · rw [if_pos h0]; exact ⟨_, rfl⟩

/-- What a word with both reserved fields 0 decodes to, by its OP and ARG (R66). -/
def decodeOp (op arg : Nat) : Except Illegal Instr :=
  match op with
  | 1 => .ok (.init arg)
  | 2 => .ok (.absorb arg)
  | 3 => decodeNoArg .permute arg
  | 4 => .ok (.extract arg)
  | 5 => decodeNoArg .wipe arg
  | 6 => decodeNoArg .clrerr arg
  | _ => .error .reservedOp

theorem decode_fields {w : CmdWord} (h0 : rsv0Field w = 0) (h1 : rsv1Field w = 0) :
    decode w = decodeOp (opField w) (argField w) := by
  unfold decode
  rw [if_neg (by simpa using h0), if_neg (by simpa using h1)]
  rfl

/-- The fields of a word that decodes: those of the command, and it is well formed. -/
theorem decode_ok_fields {w : CmdWord} {i : Instr} (h : decode w = .ok i) :
    rsv0Field w = 0 ∧ rsv1Field w = 0 ∧ opField w = i.opcode ∧ argField w = i.arg ∧ i.WellFormed := by
  have h0 : rsv0Field w = 0 := by
    by_contra hc; obtain ⟨e, he⟩ := decode_reserved (.inl hc); rw [he] at h; cases h
  have h1 : rsv1Field w = 0 := by
    by_contra hc; obtain ⟨e, he⟩ := decode_reserved (.inr hc); rw [he] at h; cases h
  have ha : argField w < 256 := by rw [argField_eq]; omega
  rw [decode_fields h0 h1] at h
  generalize opField w = op at *
  generalize argField w = a at *
  refine ⟨h0, h1, ?_⟩
  unfold decodeOp at h
  split at h
  all_goals first
    | cases h; exact ⟨rfl, rfl, decide_eq_true ha⟩
    | (unfold decodeNoArg at h; split at h <;> cases h; exact ⟨rfl, ‹_›, rfl⟩)
    | cases h

end Sys2Proof
end

