-- ==== Sys2Proof/Laws/Memory.lean ====
section
/-! SUPPORT. The laws of the byte buffers: read after write, the canonical form, and that equal reads of canonical
buffers are equal data. -/

namespace Sys2Proof.Machine

@[simp] theorem Memory.read_nil (a : Nat) : Memory.read [] a = 0 := rfl

theorem Memory.read_cons (b a : Nat) (v : Byte) (m : Memory) :
    Memory.read ((b, v) :: m) a = if a = b then v else Memory.read m a := rfl

/-- Below its first index a canonical buffer reads as unlisted. -/
theorem Memory.read_lt {lo a : Nat} {m : Memory} (h : Memory.wfFrom lo m = true) (ha : a < lo) :
    Memory.read m a = 0 := by
  induction m generalizing lo with
  | nil => rfl
  | cons c m ih =>
    obtain ⟨b, v⟩ := c
    simp only [Memory.wfFrom, Bool.and_eq_true, decide_eq_true_eq] at h
    rw [Memory.read_cons, if_neg (by omega)]
    exact ih h.2 (by omega)

/-- Reading a cell put in front of cells that do not list its index. -/
theorem Memory.read_cell {a : Nat} {m : Memory} (h : Memory.read m a = 0) (v : Byte) (x : Nat) :
    (Memory.cell a v m).read x = if x = a then v else m.read x := by
  by_cases hv : v = Memory.unlisted
  · rw [Memory.cell, if_pos hv]
    by_cases hx : x = a
    · rw [if_pos hx, hx, h, hv]; rfl
    · rw [if_neg hx]
  · rw [Memory.cell, if_neg hv, Memory.read_cons]

/-- Read after write. The canonical form matters where a byte is erased. -/
theorem Memory.read_write {lo : Nat} {m : Memory} (h : Memory.wfFrom lo m = true) (a x : Nat) (v : Byte) :
    (m.write a v).read x = if x = a then v else m.read x := by
  induction m generalizing lo with
  | nil => exact Memory.read_cell rfl v x
  | cons c m ih =>
    obtain ⟨b, u⟩ := c
    have h' := h
    simp only [Memory.wfFrom, Bool.and_eq_true, decide_eq_true_eq] at h'
    rw [Memory.write]
    split
    · exact Memory.read_cell (Memory.read_lt (lo := b) (by
        simp only [Memory.wfFrom, Bool.and_eq_true, decide_eq_true_eq]
        exact ⟨⟨⟨le_rfl, h'.1.1.2⟩, h'.1.2⟩, h'.2⟩) ‹_›) v x
    · split
      · subst b
        rw [Memory.read_cell (Memory.read_lt h'.2 (by omega)), Memory.read_cons]
        split <;> rfl
      · rw [Memory.read_cons, Memory.read_cons, ih h'.2]
        split <;> split <;> first | rfl | omega

theorem Memory.wfFrom_mono {lo lo' : Nat} {m : Memory} (hl : lo' ≤ lo) (h : Memory.wfFrom lo m = true) :
    Memory.wfFrom lo' m = true := by
  cases m with
  | nil => rfl
  | cons c m =>
    obtain ⟨b, u⟩ := c
    simp only [Memory.wfFrom, Bool.and_eq_true, decide_eq_true_eq] at h ⊢
    exact ⟨⟨⟨by omega, h.1.1.2⟩, h.1.2⟩, h.2⟩

theorem Memory.wfFrom_cell {lo a : Nat} {m : Memory} (hlo : lo ≤ a) (ha : a < bufBytes)
    (h : Memory.wfFrom (a + 1) m = true) (v : Byte) : Memory.wfFrom lo (Memory.cell a v m) = true := by
  rw [Memory.cell]
  split
  · exact Memory.wfFrom_mono (by omega) h
  · next hv =>
    simp only [Memory.wfFrom, Bool.and_eq_true, decide_eq_true_eq]
    exact ⟨⟨⟨hlo, ha⟩, hv⟩, h⟩

/-- A write inside the buffer keeps the canonical form. -/
theorem Memory.wfFrom_write {lo a : Nat} {m : Memory} (h : Memory.wfFrom lo m = true) (hlo : lo ≤ a)
    (ha : a < bufBytes) (v : Byte) : Memory.wfFrom lo (m.write a v) = true := by
  induction m generalizing lo with
  | nil => exact Memory.wfFrom_cell hlo ha rfl v
  | cons c m ih =>
    obtain ⟨b, u⟩ := c
    simp only [Memory.wfFrom, Bool.and_eq_true, decide_eq_true_eq] at h
    obtain ⟨⟨⟨h1, h2⟩, h3⟩, h4⟩ := h
    rw [Memory.write]
    split
    · refine Memory.wfFrom_cell hlo ha ?_ v
      simp only [Memory.wfFrom, Bool.and_eq_true, decide_eq_true_eq]
      exact ⟨⟨⟨by omega, h2⟩, h3⟩, h4⟩
    · split
      · subst b
        exact Memory.wfFrom_cell hlo ha h4 v
      · simp only [Memory.wfFrom, Bool.and_eq_true, decide_eq_true_eq]
        exact ⟨⟨⟨h1, h2⟩, h3⟩, ih h4 (by omega)⟩

@[simp] theorem Memory.wf_nil : Memory.wf [] = true := rfl

theorem Memory.wf_write {a : Nat} {m : Memory} (h : m.wf = true) (ha : a < bufBytes) (v : Byte) :
    (m.write a v).wf = true :=
  Memory.wfFrom_write h (Nat.zero_le a) ha v

theorem Memory.wf_writeBytes {a : Nat} {m : Memory} {bs : List Byte} (h : m.wf = true)
    (ha : a + bs.length ≤ bufBytes) : (m.writeBytes a bs).wf = true := by
  induction bs generalizing a m with
  | nil => exact h
  | cons b bs ih =>
    simp only [List.length_cons] at ha
    exact ih (Memory.wf_write h (by omega) b) (by omega)

/-- Read after a multi-byte write inside a canonical buffer. -/
theorem Memory.read_writeBytes {a : Nat} {m : Memory} {bs : List Byte} (h : m.wf = true)
    (ha : a + bs.length ≤ bufBytes) (x : Nat) :
    (m.writeBytes a bs).read x =
      if a ≤ x ∧ x < a + bs.length then bs.getD (x - a) 0 else m.read x := by
  induction bs generalizing a m with
  | nil => rw [if_neg (by simp only [List.length_nil]; omega)]; rfl
  | cons b bs ih =>
    simp only [List.length_cons] at ha ⊢
    rw [Memory.writeBytes, ih (Memory.wf_write h (by omega) b) (by omega), Memory.read_write (lo := 0) h]
    by_cases hx : x = a
    · subst hx
      rw [if_neg (by omega), if_pos rfl, if_pos (by omega), Nat.sub_self, List.getD_cons_zero]
    · by_cases hin : a + 1 ≤ x ∧ x < a + 1 + bs.length
      · rw [if_pos hin, if_pos (by omega)]
        obtain ⟨k, rfl⟩ : ∃ k, x = a + 1 + k := ⟨x - (a + 1), by omega⟩
        rw [show a + 1 + k - a = k + 1 by omega, show a + 1 + k - (a + 1) = k by omega,
          List.getD_cons_succ]
      · rw [if_neg hin, if_neg hx, if_neg (by omega)]

theorem Memory.wfFrom_ext {lo : Nat} {m m' : Memory} (h : Memory.wfFrom lo m = true)
    (h' : Memory.wfFrom lo m' = true) (he : ∀ x, m.read x = m'.read x) : m = m' := by
  induction m generalizing lo m' with
  | nil =>
    cases m' with
    | nil => rfl
    | cons c m' =>
      obtain ⟨b, u⟩ := c
      simp only [Memory.wfFrom, Bool.and_eq_true, decide_eq_true_eq] at h'
      have := he b
      simp only [Memory.read_cons, if_true] at this
      exact absurd this.symm h'.1.2
  | cons c m ih =>
    obtain ⟨b, u⟩ := c
    simp only [Memory.wfFrom, Bool.and_eq_true, decide_eq_true_eq] at h
    cases m' with
    | nil =>
      have := he b
      simp only [Memory.read_cons, if_true] at this
      exact absurd this h.1.2
    | cons c' m' =>
      obtain ⟨b', u'⟩ := c'
      simp only [Memory.wfFrom, Bool.and_eq_true, decide_eq_true_eq] at h'
      have hb : b = b' := by
        rcases Nat.lt_trichotomy b b' with hlt | heq | hlt
        · have := he b
          rw [Memory.read_cons, if_pos rfl, Memory.read_cons, if_neg (by omega),
            Memory.read_lt h'.2 (by omega)] at this
          exact absurd this h.1.2
        · exact heq
        · have := he b'
          rw [Memory.read_cons, if_neg (by omega), Memory.read_cons, if_pos rfl,
            Memory.read_lt h.2 (by omega)] at this
          exact absurd this.symm h'.1.2
      subst hb
      have hu : u = u' := by simpa [Memory.read_cons] using he b
      subst hu
      refine congrArg _ (ih h.2 h'.2 fun x => ?_)
      by_cases hx : x = b
      · rw [Memory.read_lt h.2 (by omega), Memory.read_lt h'.2 (by omega)]
      · simpa [Memory.read_cons, hx] using he x

/-- Canonical buffers that read alike are equal data. -/
theorem Memory.wf_ext {m m' : Memory} (h : m.wf = true) (h' : m'.wf = true) (he : ∀ x, m.read x = m'.read x) :
    m = m' :=
  Memory.wfFrom_ext h h' he

/-- A canonical buffer reads 0 at every index outside it. -/
theorem Memory.read_outside {m : Memory} (h : m.wf = true) {x : Nat} (hx : bufBytes ≤ x) : m.read x = 0 := by
  have go : ∀ {lo : Nat} {m : Memory}, Memory.wfFrom lo m = true → m.read x = 0 := by
    intro lo m hm
    induction m generalizing lo with
    | nil => rfl
    | cons c m ih =>
      obtain ⟨b, u⟩ := c
      simp only [Memory.wfFrom, Bool.and_eq_true, decide_eq_true_eq] at hm
      rw [Memory.read_cons, if_neg (by omega)]
      exact ih hm.2
  exact go h

end Sys2Proof.Machine
end

