-- ==== Sys2Proof/Laws/Operands.lean ====
section
/-! SUPPORT. Lane access, the little-endian conversions bit by bit, and the STATUS view bit by bit. -/

namespace Sys2Proof.Machine

/-! ### Lanes -/

/-- Reading lane `i` of a tabulated lane array. -/
theorem laneOf_lanesOf (f : Nat → Lane) (i : Nat) : laneOf (lanesOf f) i = if i < 25 then f i else 0 := by
  rw [laneOf, lanesOf]
  split
  · next h => simp [h]
  · next h => simp [h]

theorem laneOf_lanesOf_lt {f : Nat → Lane} {i : Nat} (h : i < 25) : laneOf (lanesOf f) i = f i := by
  rw [laneOf_lanesOf, if_pos h]

theorem laneOf_ge (A : Lanes) {i : Nat} (h : 25 ≤ i) : laneOf A i = 0 := by
  simp [laneOf, h]

theorem laneOf_zeroLanes (i : Nat) : laneOf zeroLanes i = 0 := by
  by_cases h : i < 25 <;> simp [laneOf, zeroLanes, h]

/-- Lane arrays that agree on lanes 0 to 24 are equal. -/
theorem lanes_ext {A B : Lanes} (h : ∀ i < 25, laneOf A i = laneOf B i) : A = B := by
  apply Vector.ext
  intro i hi
  simpa [laneOf, hi] using h i hi

theorem lanesOf_laneOf (A : Lanes) : lanesOf (laneOf A) = A :=
  lanes_ext fun _ hi => laneOf_lanesOf_lt hi

theorem laneAt_eq {A : Lanes} {x y : Nat} (hx : x < 5) (hy : y < 5) : laneAt A x y = laneOf A (x + 5 * y) := by
  rw [laneAt, Nat.mod_eq_of_lt hx, Nat.mod_eq_of_lt hy]

/-! ### Bytes and values -/

theorem getLsbD_byteOf (v : BitVec 64) (k j : Nat) :
    (byteOf v k).getLsbD j = (decide (j < 8) && v.getLsbD (8 * k + j)) := by
  simp [byteOf, BitVec.getLsbD_extractLsb']

theorem getLsbD_leValue (bs : List Byte) (j : Nat) :
    (leValue bs).getLsbD j = (decide (j < 64) && (bs.getD (j / 8) 0).getLsbD (j % 8)) := by
  induction bs generalizing j with
  | nil => simp [leValue]
  | cons b bs ih =>
    rw [leValue, BitVec.getLsbD_or, BitVec.getLsbD_setWidth, BitVec.getLsbD_shiftLeft, ih]
    by_cases h8 : j < 8
    · rw [Nat.div_eq_of_lt h8, Nat.mod_eq_of_lt h8]
      simp [h8]
    · obtain ⟨k, rfl⟩ : ∃ k, j = 8 + k := ⟨j - 8, by omega⟩
      rw [show (8 + k) / 8 = k / 8 + 1 by omega, show (8 + k) % 8 = k % 8 by omega]
      have : b.getLsbD (8 + k) = false := BitVec.getLsbD_of_ge _ _ (by omega)
      simp only [this, List.getD_cons_succ, show 8 + k - 8 = k by omega]
      by_cases hk : 8 + k < 64
      · simp [hk, show k < 64 by omega]
      · simp [hk]

@[simp] theorem length_leBytes (v : BitVec 64) (n : Nat) : (leBytes v n).length = n := by simp [leBytes]

theorem getD_leBytes (v : BitVec 64) {n k : Nat} (h : k < n) : (leBytes v n).getD k 0 = byteOf v k := by
  simp [leBytes, h]

@[simp] theorem length_readBytes (m : Memory) (a n : Nat) : (m.readBytes a n).length = n := by
  simp [Memory.readBytes]

theorem getD_readBytes (m : Memory) (a n k : Nat) :
    (m.readBytes a n).getD k 0 = if k < n then m.read (a + k) else 0 := by
  split
  · next h => simp [Memory.readBytes, h]
  · next h => simp [Memory.readBytes, h]

/-- Bit `j` of the lane that the 8-byte group `i` of a buffer decodes to (R40). -/
theorem getLsbD_laneIn (m : Memory) (i j : Nat) :
    (laneIn m i).getLsbD j = (decide (j < 64) && (m.read (8 * i + j / 8)).getLsbD (j % 8)) := by
  rw [laneIn, getLsbD_leValue, getD_readBytes]
  by_cases h : j < 64
  · rw [if_pos (by omega)]
  · simp [h]

@[simp] theorem length_serialise (A : Lanes) (n : Nat) : (serialise A n).length = n := by simp [serialise]

theorem getD_serialise (A : Lanes) {n k : Nat} (h : k < n) : (serialise A n).getD k 0 = serByte A k := by
  simp [serialise, h]

/-- Bit `j` of byte `k` of the serialisation (R41). -/
theorem getLsbD_serByte (A : Lanes) (k j : Nat) :
    (serByte A k).getLsbD j = (decide (j < 8) && (laneOf A (k / 8)).getLsbD (8 * (k % 8) + j)) :=
  getLsbD_byteOf _ _ _

/-! ### STATUS -/

theorem getLsbD_bit32 (b : Bool) (j : Nat) : (bit32 b).getLsbD j = (decide (j = 0) && b) := by
  cases b <;> cases j <;> simp [bit32]

/-- STATUS bit by bit (R30). -/
theorem getLsbD_status (s : State) (j : Nat) :
    (status s).getLsbD j =
      if j = 0 then s.busy else if j = 1 then s.err
      else if 4 ≤ j ∧ j < 8 then s.errCode.getLsbD (j - 4)
      else if 8 ≤ j ∧ j < 13 then s.rounds.getLsbD (j - 8) else false := by
  by_cases hj : j < 13
  · rw [status]
    simp only [BitVec.getLsbD_or, BitVec.getLsbD_shiftLeft, BitVec.getLsbD_setWidth, getLsbD_bit32]
    interval_cases j <;> simp
  · rw [if_neg (by omega), if_neg (by omega), if_neg (by omega), if_neg (by omega), status]
    simp only [BitVec.getLsbD_or, BitVec.getLsbD_shiftLeft, BitVec.getLsbD_setWidth, getLsbD_bit32]
    have h1 : s.errCode.getLsbD (j - 4) = false := BitVec.getLsbD_of_ge _ _ (by omega)
    have h2 : s.rounds.getLsbD (j - 8) = false := BitVec.getLsbD_of_ge _ _ (by omega)
    simp [h1, h2, show j ≠ 0 by omega, show j - 1 ≠ 0 by omega]

/-- STATUS as a number (R30). -/
theorem status_toNat (s : State) :
    (status s).toNat = s.busy.toNat + 2 * s.err.toNat + 16 * s.errCode.toNat + 256 * s.rounds.toNat := by
  have key : ∀ (b e : Bool) (c : BitVec 4) (r : BitVec 5),
      (bit32 b ||| bit32 e <<< 1 ||| c.setWidth 32 <<< 4 ||| r.setWidth 32 <<< 8).toNat =
        b.toNat + 2 * e.toNat + 16 * c.toNat + 256 * r.toNat := by decide +kernel
  exact key ..

end Sys2Proof.Machine
end

