-- ==== Sys2Proof/Laws/Permutation.lean ====
section
/-! SUPPORT. What each step of the permutation does to one lane, and how the rounds chain. -/

namespace Sys2Proof.Machine

theorem getLsbD_rotl64 (v : Lane) {r j : Nat} (hr : r < 64) (hj : j < 64) :
    (rotl64 v r).getLsbD j = v.getLsbD ((j + (64 - r)) % 64) := by
  rw [rotl64, BitVec.getLsbD_rotateLeft, Nat.mod_eq_of_lt hr]
  by_cases h : j < r
  · rw [Nat.mod_eq_of_lt (by omega : j + (64 - r) < 64), Nat.add_comm]
    simp [h]
  · rw [show (j + (64 - r)) % 64 = j - r by omega]
    simp [h, hj]

theorem laneOf_theta (A : Lanes) {i : Nat} (h : i < 25) :
    laneOf (theta A) i = laneOf A i ^^^ thetaMask A (i % 5) := laneOf_lanesOf_lt h

theorem laneOf_rho (A : Lanes) {i : Nat} (h : i < 25) :
    laneOf (rho A) i = rotl64 (laneOf A i) (rhoOffset i) := laneOf_lanesOf_lt h

theorem laneOf_piStep (A : Lanes) {i : Nat} (h : i < 25) :
    laneOf (piStep A) i = laneAt A (i % 5 + 3 * (i / 5)) (i % 5) := laneOf_lanesOf_lt h

theorem laneOf_chi (A : Lanes) {i : Nat} (h : i < 25) :
    laneOf (chi A) i =
      laneOf A i ^^^ (~~~laneAt A (i % 5 + 1) (i / 5) &&& laneAt A (i % 5 + 2) (i / 5)) := laneOf_lanesOf_lt h

theorem laneOf_iota (A : Lanes) (ir : Nat) {i : Nat} (h : i < 25) :
    laneOf (iota A ir) i = if i = 0 then laneOf A 0 ^^^ roundConstant ir else laneOf A i := laneOf_lanesOf_lt h

@[simp] theorem keccakRounds_zero (ir : Nat) (A : Lanes) : keccakRounds 0 ir A = A := rfl

theorem keccakRounds_succ (n ir : Nat) (A : Lanes) :
    keccakRounds (n + 1) ir A = keccakRounds n (ir + 1) (keccakRound A ir) := rfl

/-- Rounds in a row: `m` rounds from `ir` on, then `n` more. -/
theorem keccakRounds_add (m n ir : Nat) (A : Lanes) :
    keccakRounds (m + n) ir A = keccakRounds n (ir + m) (keccakRounds m ir A) := by
  induction m generalizing ir A with
  | zero => simp
  | succ m ih =>
    rw [show m + 1 + n = m + n + 1 by omega, keccakRounds_succ, keccakRounds_succ, ih,
      show ir + 1 + m = ir + (m + 1) by omega]

theorem keccakP_def (nr : Nat) (A : Lanes) : keccakP nr A = keccakRounds nr (24 - nr) A := rfl

/-- The rounds as one fold over the round indices. -/
theorem keccakRounds_eq_foldl (n ir : Nat) (A : Lanes) :
    keccakRounds n ir A = ((List.range n).map fun k => ir + k).foldl keccakRound A := by
  induction n generalizing ir A with
  | zero => rfl
  | succ n ih =>
    rw [keccakRounds_succ, ih, List.range_succ_eq_map]
    simp only [List.map_cons, List.foldl_cons, List.map_map, Nat.add_zero]
    congr 2; funext k; simp; omega

/-- Lane states that agree in every bit are equal. -/
theorem lanes_bit_ext {A B : Lanes}
    (h : ∀ x < 5, ∀ y < 5, ∀ z < 64, (laneOf A (x + 5 * y)).getLsbD z = (laneOf B (x + 5 * y)).getLsbD z) : A = B := by
  apply lanes_ext; intro i hi
  apply BitVec.eq_of_getLsbD_eq; intro z hz
  have := h (i % 5) (by omega) (i / 5) (by omega) z hz
  rwa [show i % 5 + 5 * (i / 5) = i by omega] at this

/-- There are finitely many lane states, so an injective step is a bijection. -/
theorem lanes_bijective {f : Lanes → Lanes} (h : Function.Injective f) : Function.Bijective f := by
  have e : Lanes ≃ (Fin 25 → BitVec 64) := {
    toFun := fun A i => laneOf A i
    invFun := fun g => Vector.ofFn g
    left_inv := by intro A; apply Vector.ext; intro i hi; simp [laneOf]
    right_inv := by intro g; funext i; simp [laneOf] }
  have : Finite (BitVec 64) := Finite.of_injective BitVec.toFin (fun _ _ h => BitVec.eq_of_toFin_eq h)
  have : Finite Lanes := Finite.of_equiv _ e.symm
  exact Finite.injective_iff_bijective.1 h

end Sys2Proof.Machine
end

