-- ==== Sys2Proof/Laws/Step.lean ====
section
/-! SUPPORT. What a bus access, a host operation and a step can do, each said once. -/

namespace Sys2Proof.Machine

/-! ### Bus accesses -/

theorem busRead_cases {off : BitVec 12} {n : Width} {s t : State} (h : busRead off n s = .next t) :
    permitted off n .read = true ∧ t = s.addReply ⟨off, n, readValue off n s⟩ := by
  rw [busRead] at h
  split at h
  · next hp => cases h; exact ⟨hp, rfl⟩
  · cases h

theorem permitted_write_region {off : BitVec 12} {n : Width} (h : permitted off n .write = true) :
    regionOf off = .inBuf ∨ (regionOf off = .cmd ∧ n = .w4) := by
  rw [permitted, Bool.and_eq_true] at h
  cases hr : regionOf off <;> rw [hr] at h <;> simp_all [rowPermits]

/-- A permitted write stores to IN_BUF or issues a command. -/
theorem busWrite_cases {off : BitVec 12} {n : Width} {v : BitVec 64} {s t : State}
    (h : busWrite off n v s = .next t) :
    permitted off n .write = true ∧
    ((regionOf off = .inBuf ∧ t = s.setInBuf (s.inBuf.writeBytes off.toNat (leBytes v n.bytes))) ∨
     (regionOf off = .cmd ∧ n = .w4 ∧ issue (v.setWidth 32) s = .next t)) := by
  rw [busWrite] at h
  split at h
  · next hp =>
    rcases permitted_write_region hp with hr | ⟨hr, hn⟩
    · rw [hr] at h; cases h; exact ⟨hp, .inl ⟨hr, rfl⟩⟩
    · rw [hr] at h; exact ⟨hp, .inr ⟨hr, hn, h⟩⟩
  · cases h

theorem busWrite_cmd (v : BitVec 64) (s : State) :
    busWrite cmdOffset .w4 v s = issue (v.setWidth 32) s := rfl

/-- A permitted access of IN_BUF lies inside the buffer (R45: it never crosses a row). -/
theorem inBuf_inside {off : BitVec 12} {n : Width} {dir : Direction} (h : permitted off n dir = true)
    (hr : regionOf off = .inBuf) : off.toNat + n.bytes ≤ bufBytes := by
  rw [permitted, Bool.and_eq_true] at h
  have ha : off.toNat % n.bytes = 0 := by simpa [aligned] using h.2
  have ho : off.toNat ≤ 0x0C7 := by
    rw [regionOf] at hr
    by_contra hc
    rw [if_neg hc] at hr
    repeat' split at hr
    all_goals cases hr
  rw [bufBytes]
  cases n <;> simp only [Width.bytes] at ha ⊢ <;> omega

/-! ### Host operations -/

/-- What one host operation can do. -/
theorem perform_cases {op : HostOp} {s t : State} (h : perform op s = .next t) :
    (∃ off n, op = .read off n ∧ permitted off n .read = true ∧ t = s.addReply ⟨off, n, readValue off n s⟩) ∨
    (∃ off n v, op = .write off n v ∧ permitted off n .write = true ∧ regionOf off = .inBuf ∧
      t = s.setInBuf (s.inBuf.writeBytes off.toNat (leBytes v n.bytes))) ∨
    (∃ off v, op = .write off .w4 v ∧ permitted off .w4 .write = true ∧ regionOf off = .cmd ∧
      issue (v.setWidth 32) s = .next t) ∨
    (op = .wait ∧ t =
      if busyOf (readValue statusOffset .w4 s) then
        (s.addReply ⟨statusOffset, .w4, readValue statusOffset .w4 s⟩).setQueue (.wait :: s.queue)
      else s.addReply ⟨statusOffset, .w4, readValue statusOffset .w4 s⟩) ∨
    (op = .check ∧ errOf (readValue statusOffset .w4 s) = false ∧
      t = s.addReply ⟨statusOffset, .w4, readValue statusOffset .w4 s⟩) ∨
    (op = .reset ∧ t = s.resetEngine) := by
  cases op with
  | read off n => exact .inl ⟨off, n, rfl, busRead_cases h⟩
  | write off n v =>
    obtain ⟨hp, ⟨hr, ht⟩ | ⟨hr, rfl, hi⟩⟩ := busWrite_cases h
    · exact .inr (.inl ⟨off, n, v, rfl, hp, hr, ht⟩)
    · exact .inr (.inr (.inl ⟨off, v, rfl, hp, hr, hi⟩))
  | wait =>
    refine .inr (.inr (.inr (.inl ⟨rfl, ?_⟩)))
    simp only [perform] at h
    split at h
    · next hb => cases h; rw [if_pos hb]; rfl
    · next hb => cases h; rw [if_neg hb]
  | check =>
    refine .inr (.inr (.inr (.inr (.inl ⟨rfl, ?_⟩))))
    simp only [perform] at h
    split at h
    · cases h
    · next he => cases h; exact ⟨by simpa using he, rfl⟩
  | reset => cases h; exact .inr (.inr (.inr (.inr (.inr ⟨rfl, rfl⟩))))

/-! ### A step -/

theorem step_completion {s : State} (h : engineMoves s = true) : step s = complete s := by
  rw [step, agentStep, if_pos h]

theorem step_host {s : State} {op : HostOp} {rest : List HostOp} (h : engineMoves s = false)
    (hq : s.queue = op :: rest) : step s = perform op (s.takeOp rest) := by
  rw [step, agentStep, if_neg (by simp [h]), hostStep, hq]

theorem step_idle {s : State} (h : engineMoves s = false) (hq : s.queue = []) : step s = .next s := by
  rw [step, agentStep, if_neg (by simp [h]), hostStep, hq]

/-- What a step can do: the completion, the host's next operation, or nothing. -/
theorem step_cases {s t : State} (h : step s = .next t) :
    (engineMoves s = true ∧ complete s = .next t) ∨
    (engineMoves s = false ∧ s.queue = [] ∧ t = s) ∨
    (engineMoves s = false ∧ ∃ op rest, s.queue = op :: rest ∧ perform op (s.takeOp rest) = .next t) := by
  cases he : engineMoves s with
  | true => exact .inl ⟨rfl, by rwa [step_completion he] at h⟩
  | false =>
    cases hq : s.queue with
    | nil => rw [step_idle he hq] at h; cases h; exact .inr (.inl ⟨rfl, rfl, rfl⟩)
    | cons op rest => exact .inr (.inr ⟨rfl, op, rest, rfl, by rwa [step_host he hq] at h⟩)

/-- A run goes on from the next state of its first step. -/
theorem run_succ {s t : State} (h : step s = .next t) (n : Nat) : core.run (n + 1) s = core.run n t := by
  have hs : core.step s = .next t := h
  simp only [Host.Core.run, hs]

/-- A run in two parts. -/
theorem run_add {s t : State} {m : Nat} (h : core.run m s = .next t) (n : Nat) :
    core.run (m + n) s = core.run n t := by
  induction m generalizing s with
  | zero => cases h; rw [Nat.zero_add]
  | succ m ih =>
    rw [show m + 1 + n = m + n + 1 by omega]
    cases hs : step s with
    | next u => rw [run_succ hs] at h ⊢; exact ih h
    | fault r =>
      have hs' : core.step s = .fault r := hs
      simp only [Host.Core.run, hs'] at h; cases h
    | refused r =>
      have hs' : core.step s = .refused r := hs
      simp only [Host.Core.run, hs'] at h; cases h

/-- BUSY in the STATUS value a host reads. -/
theorem busyOf_status (s : State) : busyOf (readValue statusOffset .w4 s) = s.busy := by
  have h : readValue statusOffset .w4 s = (status s).setWidth 64 := rfl
  rw [h, busyOf]
  have hb : ((status s).setWidth 64 &&& 1).getLsbD 0 = s.busy := by
    rw [BitVec.getLsbD_and, BitVec.getLsbD_setWidth, getLsbD_status]
    simp
  have hz : ∀ v : BitVec 64, (v &&& 1 != 0) = (v &&& 1).getLsbD 0 := by
    intro v
    have hv : v &&& 1 = if v.getLsbD 0 then 1 else 0 := by
      apply BitVec.eq_of_getLsbD_eq
      intro i hi
      rw [BitVec.getLsbD_and]
      cases i with
      | zero => cases hv0 : v.getLsbD 0 <;> simp
      | succ i => cases hv0 : v.getLsbD 0 <;> simp [BitVec.getLsbD_one]
    rw [hv]
    cases v.getLsbD 0 <;> rfl
  rw [hz, hb]

/-- ERR in the STATUS value a host reads. -/
theorem errOf_status (s : State) : errOf (readValue statusOffset .w4 s) = s.err := by
  have h : readValue statusOffset .w4 s = (status s).setWidth 64 := rfl
  rw [h, errOf]
  have hv : (status s).setWidth 64 >>> 1 &&& 1 = if s.err then 1 else 0 := by
    apply BitVec.eq_of_getLsbD_eq
    intro i hi
    rw [BitVec.getLsbD_and, BitVec.getLsbD_ushiftRight, BitVec.getLsbD_setWidth, getLsbD_status]
    cases i with
    | zero => cases s.err <;> simp
    | succ i => cases s.err <;> simp [BitVec.getLsbD_one]
  rw [hv]
  cases s.err <;> rfl

end Sys2Proof.Machine
end

