-- ==== Sys2Proof/Laws/Safety.lean ====
section
/-! SUPPORT. A recorded command error in the terms the claims use, and how each command executes by case. -/

namespace Sys2Proof.Machine

/-- Recording an error is what `Rejected` says (R142). -/
theorem cmdError_rejected (e : CmdError) (s : State) : Rejected (errorCode e) s (cmdError e s) := by
  rw [cmdError_eq]; simp [Rejected, SameButError]

theorem exec_busy {i : Instr} {s : State} (h : s.busy = true) : ∃ t, exec i s = .next t ∧ Rejected 5 s t :=
  ⟨_, (exec_eq i s).trans (runCommand_busy h), cmdError_rejected .cmdWhileBusy s⟩

theorem exec_bad {i : Instr} {s : State} {e : CmdError} (h : s.busy = false) (he : operandError i = some e) :
    ∃ t, exec i s = .next t ∧ Rejected (errorCode e) s t :=
  ⟨_, (exec_eq i s).trans (by rw [he]; exact runCommand_bad h), cmdError_rejected e s⟩

theorem exec_ok {i : Instr} {s : State} (h : s.busy = false) (he : operandError i = none) :
    exec i s = .next (commandEffect i s) :=
  (exec_eq i s).trans (by rw [he]; exact runCommand_ok h)

theorem issue_illegal {w : CmdWord} {e : Illegal} {s : State} (hd : decode w = .error e) (h : s.busy = false) :
    ∃ t, issue w s = .next t ∧ Rejected 1 s t :=
  ⟨_, (issue_error hd).trans (runCommand_bad h), cmdError_rejected .illegalCmd s⟩

/-- The model's check of an access is the table of R43 with the alignment of R45. -/
theorem permitted_iff (off : BitVec 12) (n : Width) (dir : Direction) :
    permitted off n dir = true ↔ MapPermits off.toNat n.bytes dir := by
  unfold permitted regionOf MapPermits aligned
  have := off.isLt
  generalize off.toNat = o at *
  constructor
  · intro h
    rw [Bool.and_eq_true] at h
    refine ⟨by simpa using h.2, ?_⟩
    have h1 := h.1
    split at h1; · left; assumption
    split at h1; · cases h1
    split at h1
    · right; left; cases dir
      · exact ⟨by omega, by omega, rfl⟩
      · cases h1
    split at h1; · cases h1
    split at h1
    · cases dir
      · cases h1
      · right; right; left; simp [rowPermits] at h1; subst h1; exact ⟨by omega, by omega, rfl, rfl⟩
    split at h1
    · cases dir
      · right; right; right; simp [rowPermits] at h1; subst h1; exact ⟨by omega, by omega, rfl, rfl⟩
      · cases h1
    · cases h1
  · rintro ⟨ha, h⟩
    rw [Bool.and_eq_true]
    refine ⟨?_, by simpa using ha⟩
    have w4 : n.bytes = 4 → n = .w4 := by cases n <;> simp [Width.bytes]
    rcases h with h | ⟨h1, h2, rfl⟩ | ⟨h1, h2, rfl, h4⟩ | ⟨h1, h2, rfl, h4⟩
    · rw [if_pos h]; rfl
    · rw [if_neg (by omega), if_neg (by omega), if_pos (by omega)]; rfl
    · rw [if_neg (by omega), if_neg (by omega), if_neg (by omega), if_neg (by omega), if_pos (by omega), w4 h4]; rfl
    · rw [if_neg (by omega), if_neg (by omega), if_neg (by omega), if_neg (by omega), if_neg (by omega),
        if_pos (by omega), w4 h4]
      rfl

theorem inBuf_offset {off : BitVec 12} (hr : regionOf off = .inBuf) : off.toNat ≤ 0x0C7 := by
  by_contra hc
  rw [regionOf, if_neg hc] at hr
  repeat' split at hr <;> try cases hr

/-- A permitted access of the CMD row is one at its first offset. -/
theorem cmd_offset {off : BitVec 12} (hp : permitted off .w4 .write = true) (hr : regionOf off = .cmd) :
    off = cmdOffset := by
  have ha := ((permitted_iff off .w4 .write).1 hp).1
  have h4 : Width.bytes .w4 = 4 := rfl
  rw [h4] at ha
  apply BitVec.eq_of_toNat_eq
  show off.toNat = 0x200
  rw [regionOf] at hr
  repeat' split at hr <;> try cases hr
  omega

/-- What a step does to the state: the completion; nothing but the host's side; an IN_BUF write; a command; a reset. -/
theorem step_changes {s t : State} (h : step s = .next t) :
    (engineMoves s = true ∧ s.pending = true ∧ s.rounds.toNat ≤ 24 ∧
      t = (s.setLanes (keccakP s.rounds.toNat s.lanes)).endPermutation) ∨
    (∃ q d r, t = { s with queue := q, delay := d, replies := r }) ∨
    (engineMoves s = false ∧ ∃ off n v rest m, s.queue = .write off n v :: rest ∧ off.toNat ≤ 0x0C7 ∧
      t = { s with queue := rest, delay := s.delay - 1, inBuf := m }) ∨
    (engineMoves s = false ∧ ∃ v rest, s.queue = .write cmdOffset .w4 v :: rest ∧
      issue (v.setWidth 32) (s.takeOp rest) = .next t) ∨
    (ResetNow s ∧ ∃ rest, t = (s.takeOp rest).resetEngine) := by
  rcases step_cases h with ⟨hm, hc⟩ | ⟨_, _, rfl⟩ | ⟨hm, op, rest, hq, hp⟩
  · obtain ⟨hr, rfl⟩ := complete_cases hc
    exact .inl ⟨hm, by simp [engineMoves] at hm; exact hm.1, hr, rfl⟩
  · exact .inr (.inl ⟨_, _, _, rfl⟩)
  · rcases perform_cases hp with ⟨_, _, _, _, rfl⟩ | ⟨off, n, v, rfl, hpm, hr, rfl⟩ | ⟨off, v, rfl, hpm, hr, hi⟩ |
      ⟨_, rfl⟩ | ⟨_, _, rfl⟩ | ⟨rfl, rfl⟩
    · exact .inr (.inl ⟨_, _, _, rfl⟩)
    · exact .inr (.inr (.inl ⟨hm, off, n, v, rest, _, hq, inBuf_offset hr, rfl⟩))
    · have := cmd_offset hpm hr; subst this
      exact .inr (.inr (.inr (.inl ⟨hm, v, rest, hq, hi⟩)))
    · right; left; split <;> exact ⟨_, _, _, rfl⟩
    · exact .inr (.inl ⟨_, _, _, rfl⟩)
    · exact .inr (.inr (.inr (.inr ⟨⟨hm, rest, hq⟩, rest, rfl⟩)))

/-- No step changes the number of the instance. -/
theorem step_inst {s t : State} (h : step s = .next t) : t.inst = s.inst := by
  rcases step_changes h with ⟨_, _, _, rfl⟩ | ⟨_, _, _, rfl⟩ | ⟨_, _, _, _, _, _, _, _, rfl⟩ | ⟨_, v, rest, _, hi⟩ |
    ⟨_, _, rfl⟩
  · rfl
  · rfl
  · rfl
  · rcases issue_cases hi with ⟨_, rfl⟩ | ⟨_, _, rfl⟩ | ⟨_, _, _, _, _, rfl⟩ | ⟨_, i, _, _, rfl⟩
    · rw [cmdError_eq]; rfl
    · rw [cmdError_eq]; rfl
    · rw [cmdError_eq]; rfl
    · cases i <;> simp [commandEffect, initEffect, absorbEffect, permuteEffect, extractEffect, wipeEffect, clrerrEffect]
  · rfl

/-- A word with a cause of rejection is rejected with some code and has no other effect (R80, R142). -/
theorem issue_rejected {w : CmdWord} {s : State} (h : RejectionCause w s) :
    ∃ c t, issue w s = .next t ∧ Rejected c s t := by
  cases hd : decode w with
  | error e =>
    cases hb : s.busy with
    | true => exact ⟨_, _, (issue_error hd).trans (runCommand_busy hb), cmdError_rejected .cmdWhileBusy s⟩
    | false => exact ⟨1, issue_illegal hd hb⟩
  | ok i =>
    rw [issue_ok hd]
    cases hb : s.busy with
    | true => exact ⟨5, exec_busy hb⟩
    | false =>
      have he : ∃ e, operandError i = some e := by
        rcases h with h | ⟨e, h⟩ | ⟨nr, h, hn⟩ | ⟨len, h, hn⟩ | ⟨len, h, hn⟩
        · simp [hb] at h
        · rw [hd] at h; cases h
        · rw [hd] at h; cases h
          exact ⟨.badRounds, by rw [operandError, roundsError, if_neg (by omega)]⟩
        · rw [hd] at h; cases h
          exact ⟨.badAbsorbLen, by rw [operandError, absorbError, if_neg (by omega)]⟩
        · rw [hd] at h; cases h
          exact ⟨.badExtractLen, by rw [operandError, extractError, if_neg (by omega)]⟩
      obtain ⟨e, he⟩ := he
      exact ⟨_, exec_bad hb he⟩

end Sys2Proof.Machine
end

