-- ==== Sys2Proof/Tests/Slice0.lean ====
section
/-! SUPPORT. Tests of the model against 95_test_vectors.md and the encodings of 30_encoding.md, each on one step or one
operation, and after them a witness for the hypotheses of every obligation. Expected values are the spec's. -/

open Sys2Proof Sys2Proof.Machine

namespace Sys2Proof.Tests

/-! ### Helpers -/

/-- A permutation is pending and three host operations away. -/
def busyState : State := { State.reset with pending := true, busy := true, delay := 3 }

/-- A permutation is pending and due. -/
def dueState : State := { State.reset with pending := true, busy := true }

/-- STATUS = 0x00001822: BAD_ROUNDS is recorded. -/
def errState : State := { State.reset with err := true, errCode := 2 }

/-- The index pattern I of 95_test_vectors.md section 2.7: L[i] = i. -/
def lanesI : Lanes := lanesOf fun i => BitVec.ofNat 64 i

/-- IN_BUF starts with 00 01 02 03 04 05 06 07, with 0xFF in byte 8; every lane holds its index; OUT_BUF[0..3] is 0xAA. -/
def loaded : State :=
  { State.reset with
    lanes := lanesI
    inBuf := [(1, 1), (2, 2), (3, 3), (4, 4), (5, 5), (6, 6), (7, 7), (8, 0xFF)]
    outBuf := [(0, 0xAA), (1, 0xAA), (2, 0xAA), (3, 0xAA)] }

/-- The host has one operation to perform. -/
def withOp (op : HostOp) (s : State) : State := { s with queue := [op] }

/-- A view of the next state. -/
def seen {α : Type} (f : State → α) : Result → Option α
  | .next t => some (f t)
  | .fault _ => none
  | .refused _ => none

/-- The reason of a fault. -/
def faultOf : Result → Option Fault
  | .next _ => none
  | .fault r => some r
  | .refused _ => none

/-- The value of the newest reply. -/
def lastValue (s : State) : Option (BitVec 64) := s.replies.head?.map ReadReply.value

/-! ### WellFormed refuses -/

theorem test_wellFormed_init : ¬ (Instr.init 256).WellFormed := by decide
theorem test_wellFormed_absorb : ¬ (Instr.absorb 256).WellFormed := by decide
theorem test_wellFormed_extract : ¬ (Instr.extract 256).WellFormed := by decide
theorem test_wellFormed_accepts : (Instr.init 255).WellFormed ∧ (Instr.absorb 255).WellFormed ∧
    (Instr.extract 255).WellFormed ∧ Instr.permute.WellFormed ∧ Instr.wipe.WellFormed ∧ Instr.clrerr.WellFormed := by
  decide

/-! ### Decoding (words written out bit by bit from R60 and R61: RSV1, ARG, RSV0, OP) -/

theorem test_decode_init : decode 0b0000000000000000_00011000_0000_0001 = .ok (.init 24) := by decide
theorem test_decode_absorb : decode 0b0000000000000000_10001000_0000_0010 = .ok (.absorb 136) := by decide
theorem test_decode_permute : decode 0b0000000000000000_00000000_0000_0011 = .ok .permute := by decide
theorem test_decode_extract : decode 0b0000000000000000_00100000_0000_0100 = .ok (.extract 32) := by decide
theorem test_decode_wipe : decode 0b0000000000000000_00000000_0000_0101 = .ok .wipe := by decide
theorem test_decode_clrerr : decode 0b0000000000000000_00000000_0000_0110 = .ok .clrerr := by decide

/-- Every other value of OP is reserved (R61, R63). -/
theorem test_decode_reserved : decode 0 = .error .reservedOp ∧
    ∀ op < 16, 7 ≤ op → decode (BitVec.ofNat 32 op) = .error .reservedOp := by decide

/-- The other illegal words of section 2.1. -/
theorem test_decode_illegal : decode 0x00000103 = .error .argNotZero ∧ decode 0x00000105 = .error .argNotZero ∧
    decode 0x00000106 = .error .argNotZero ∧ decode 0x00000011 = .error .rsv0NotZero ∧
    decode 0x00010001 = .error .rsv1NotZero ∧ decode 0x80001801 = .error .rsv1NotZero ∧
    decode 0x00011901 = .error .rsv1NotZero := by decide

theorem test_encode : encode (.init 24) = 0x00001801 ∧ encode (.absorb 136) = 0x00008802 ∧
    encode .permute = 0x00000003 ∧ encode (.extract 200) = 0x0000C804 ∧ encode .wipe = 0x00000005 ∧
    encode .clrerr = 0x00000006 := by decide

theorem test_decodeTableWord : decodeTableWord 32 0x00008802 = some (.absorb 136) ∧
    decodeTableWord 32 0x00000007 = none ∧ decodeTableWord 16 0xFFFF1801 = some (.init 24) := by decide

/-! ### The commands, from S0 unless stated (sections 2.1, 2.3 to 2.6): STATUS after -/

theorem test_init : seen status (execInit 12 State.reset) = some 0x00000C00 ∧
    seen status (execInit 12 errState) = some 0x00000C22 ∧ seen (laneOf ·.lanes 7) (execInit 24 loaded) = some 0 := by
  decide

theorem test_init_rejected : seen status (execInit 25 State.reset) = some 0x00001822 ∧
    seen status (execInit 25 busyState) = some 0x00001853 ∧ seen (laneOf ·.lanes 7) (execInit 25 loaded) = some 7 := by
  decide

/-- V-ABS: the block is read little-endian, and bytes from LEN on are ignored. -/
theorem test_absorb : seen status (execAbsorb 8 loaded) = some 0x00001801 ∧
    seen (laneOf ·.lanes 0) (execAbsorb 8 loaded) = some 0x0706050403020100 ∧
    seen (laneOf ·.lanes 1) (execAbsorb 8 loaded) = some 1 ∧
    seen (laneOf ·.lanes 1) (execAbsorb 16 loaded) = some 0xFE := by decide

theorem test_absorb_rejected : seen status (execAbsorb 12 State.reset) = some 0x00001832 ∧
    seen status (execAbsorb 208 State.reset) = some 0x00001832 ∧ seen status (execAbsorb 200 State.reset) = some 0x00001801 ∧
    seen status (execAbsorb 12 errState) = some 0x00001822 := by decide

theorem test_permute : seen status (execPermute State.reset) = some 0x00001801 ∧
    seen status (execPermute busyState) = some 0x00001853 ∧ seen (laneOf ·.lanes 7) (execPermute loaded) = some 7 := by
  decide

/-- V-EXT-3: only LEN bytes are written; a lane is serialised little-endian. -/
theorem test_extract : seen (·.outByte 0) (execExtract 3 loaded) = some 0 ∧
    seen (·.outByte 3) (execExtract 3 loaded) = some 0xAA ∧ seen (·.outByte 8) (execExtract 9 loaded) = some 1 ∧
    seen (·.outByte 192) (execExtract 200 loaded) = some 24 := by decide +kernel

theorem test_extract_rejected : seen status (execExtract 201 State.reset) = some 0x00001842 ∧
    seen (·.outBuf) (execExtract 201 loaded) = some loaded.outBuf := by decide

/-- V-WIPE and V-WIPE-BUSY. -/
theorem test_wipe : seen status (execWipe { errState with rounds := 12 }) = some 0x00001800 ∧
    seen (laneOf ·.lanes 7) (execWipe loaded) = some 0 ∧ seen (·.inBuf) (execWipe loaded) = some [] ∧
    seen (·.outBuf) (execWipe loaded) = some [] := by decide
theorem test_wipe_busy : seen status (execWipe busyState) = some 0x00001853 := by decide

/-- V-CLR and V-CLR-BUSY. -/
theorem test_clrerr : seen status (execClrerr errState) = some 0x00001800 ∧
    seen status (execClrerr State.reset) = some 0x00001800 ∧ seen status (execClrerr busyState) = some 0x00001853 := by
  decide

/-- Illegal words: code 1 when idle, code 5 while BUSY = 1 (R143). -/
theorem test_issue_illegal : seen status (issue 0x00011901 State.reset) = some 0x00001812 ∧
    seen status (issue 0 busyState) = some 0x00001853 ∧ seen status (issue 0x00000007 errState) = some 0x00001822 := by
  decide

/-! ### The step -/

/-- The word placed by `withFetchWord` is the first thing the machine runs after reset. -/
theorem test_step_runs_word : seen status (step (State.reset.withFetchWord 32 0x00000C01)) = some 0x00000C00 ∧
    seen status (step (State.reset.withFetchWord 32 0x00000003)) = some 0x00001801 ∧
    seen status (step (dueState.withFetchWord 32 0x00000006)) = some 0x00001853 := by decide

/-- The completion: INIT 1 and PERMUTE give L[0] = RC[23] (section 2.5); INIT 0 leaves the lanes. -/
theorem test_completion : seen (laneOf ·.lanes 0) (step { dueState with rounds := 1 }) = some 0x8000000080008008 ∧
    seen status (step { dueState with rounds := 0 }) = some 0 ∧
    seen (laneOf ·.lanes 7) (step { dueState with rounds := 0, lanes := lanesI }) = some 7 := by decide +kernel

theorem test_completion_out_of_range :
    faultOf (step { dueState with rounds := 25 }) = some (.roundsOutOfRange 25) := by decide

/-- WAIT polls while BUSY = 1 and ends with BUSY = 0 (R67); CHECK requires ERR = 0. -/
theorem test_wait : seen (·.queue) (step (withOp .wait busyState)) = some [.wait] ∧
    seen (·.queue) (step (withOp .wait State.reset)) = some [] ∧
    seen lastValue (step (withOp .wait State.reset)) = some (some 0x00001800) := by decide
theorem test_check : faultOf (step (withOp .check errState)) = some (.checkFailed 0x00001822) ∧
    seen lastValue (step (withOp .check State.reset)) = some (some 0x00001800) := by decide

/-- A reset abandons the pending permutation (R160). -/
theorem test_reset : seen status (step (withOp .reset busyState)) = some 0x00001800 ∧
    seen (·.pending) (step (withOp .reset busyState)) = some false := by decide

/-! ### The host window (section 2.2) -/

/-- After `SD 0x000, 0x0123456789ABCDEF`. -/
def stored : State :=
  { State.reset with
    inBuf := [(0, 0xEF), (1, 0xCD), (2, 0xAB), (3, 0x89), (4, 0x67), (5, 0x45), (6, 0x23), (7, 0x01)] }

theorem test_store : seen (·.inBuf) (busWrite 0 .w8 0x0123456789ABCDEF State.reset) = some stored.inBuf ∧
    seen (·.inByte 199) (busWrite 0x0C7 .w1 0x55 State.reset) = some 0x55 ∧
    seen (·.inBuf) (busWrite 0x004 .w4 0 stored) = some [(0, 0xEF), (1, 0xCD), (2, 0xAB), (3, 0x89)] := by decide

theorem test_load : seen lastValue (busRead 0x000 .w1 stored) = some (some 0xEF) ∧
    seen lastValue (busRead 0x007 .w1 stored) = some (some 0x01) ∧
    seen lastValue (busRead 0x006 .w2 stored) = some (some 0x0123) ∧
    seen lastValue (busRead 0x004 .w4 stored) = some (some 0x01234567) ∧
    seen lastValue (busRead 0x100 .w2 loaded) = some (some 0xAAAA) ∧
    seen lastValue (busRead 0x204 .w4 busyState) = some (some 0x00001801) := by decide

theorem test_bus_errors : faultOf (busWrite 0x0C8 .w1 0x55 State.reset) = some (.busError 0x0C8 .w1 .write) ∧
    faultOf (busRead 0x0FF .w1 State.reset) = some (.busError 0x0FF .w1 .read) ∧
    faultOf (busWrite 0x002 .w4 0 State.reset) = some (.busError 0x002 .w4 .write) ∧
    faultOf (busWrite 0x0C4 .w8 0 State.reset) = some (.busError 0x0C4 .w8 .write) ∧
    faultOf (busRead 0x101 .w2 State.reset) = some (.busError 0x101 .w2 .read) ∧
    faultOf (busWrite 0x100 .w1 0 State.reset) = some (.busError 0x100 .w1 .write) ∧
    faultOf (busRead 0x1C8 .w8 State.reset) = some (.busError 0x1C8 .w8 .read) := by decide

theorem test_register_bus_errors : faultOf (busRead 0x200 .w4 State.reset) = some (.busError 0x200 .w4 .read) ∧
    faultOf (busWrite 0x200 .w2 3 State.reset) = some (.busError 0x200 .w2 .write) ∧
    faultOf (busWrite 0x200 .w8 3 State.reset) = some (.busError 0x200 .w8 .write) ∧
    faultOf (busRead 0x204 .w1 State.reset) = some (.busError 0x204 .w1 .read) ∧
    faultOf (busWrite 0x204 .w4 0 State.reset) = some (.busError 0x204 .w4 .write) ∧
    faultOf (busRead 0x208 .w4 State.reset) = some (.busError 0x208 .w4 .read) ∧
    faultOf (busRead 0xFFC .w4 State.reset) = some (.busError 0xFFC .w4 .read) := by decide

/-! ### The permutation (section 2.7, rows y = 0 and y = 4 of each table unless stated) -/

theorem test_theta : (List.range 5).map (laneOf (theta lanesI)) = [0x1A, 0x09, 0x0D, 0x1D, 0x2F] ∧
    laneOf (theta lanesI) 24 = 0x33 := by decide +kernel

theorem test_rho : laneOf (rho lanesI) 2 = 0x8000000000000000 ∧ laneOf (rho lanesI) 22 = 0xC000000000000002 ∧
    laneOf (rho lanesI) 23 = 0x1700000000000000 ∧ laneOf (rho lanesI) 8 = 0x0400000000000000 := by decide +kernel

theorem test_pi : (List.range 25).map (laneOf (piStep lanesI)) =
    [0, 6, 12, 18, 24, 3, 9, 10, 16, 22, 1, 7, 13, 19, 20, 4, 5, 11, 17, 23, 2, 8, 14, 15, 21] := by decide +kernel

theorem test_chi : (List.range 5).map (laneOf (chi lanesI)) = [2, 0, 6, 3, 5] ∧
    (List.range 5).map (fun x => laneOf (chi lanesI) (x + 20)) = [0x16, 0x14, 0x1E, 0x13, 0x19] := by decide +kernel

theorem test_iota : laneOf (iota lanesI 0) 0 = 1 ∧ laneOf (iota lanesI 23) 0 = 0x8000000080008008 ∧
    laneOf (iota lanesI 23) 1 = 1 := by decide +kernel

/-- KeccakP(1, I), rows y = 0 and y = 4. -/
theorem test_round : (List.range 5).map (laneOf (keccakP 1 lanesI)) =
      [0x8000180080008012, 0x0000E00001800000, 0x00001800000CC000, 0x000000000180001A, 0x0000E000000CC000] ∧
    (List.range 5).map (fun x => laneOf (keccakP 1 lanesI) (x + 20)) =
      [0x4000128000000003, 0x0B00280000000000, 0x0000128000000074, 0x40002A0000000003, 0x0B00000000000074] := by
  decide +kernel

/-- KeccakP(2, 0) uses RC[22] and RC[23] (section 2.8): lanes 0 to 2. -/
theorem test_two_rounds : (List.range 3).map (laneOf (keccakP 2 zeroLanes)) =
    [0x8000000000008009, 0x0000100000000800, 0x0000400000008000] := by decide +kernel

/-! ### Witnesses: states and operands that meet the hypotheses of each obligation, at the boundaries of its clauses -/

/-- The host has these operations to perform. -/
def withOps (ops : List HostOp) (s : State) : State := { s with queue := ops }

/-- The next operation of a CMD write of a word. -/
def cmdWrite (w : BitVec 64) : HostOp := .write cmdOffset .w4 w

theorem witness_InitZeroesLanesAndLoadsRounds :
    255 < 256 ∧ busyState.busy = true ∧ (State.reset.busy = false ∧ 24 < 25) ∧
    (State.reset.busy = false ∧ 24 ≤ 24 ∧ 0 ≤ 24 ∧ State.reset.err = false ∧ State.reset.errCode = 0) ∧
    (opField 0x00000011 = 1 ∧ rsv0Field 0x00000011 ≠ 0) ∧ (opField 0x00010001 = 1 ∧ rsv1Field 0x00010001 ≠ 0) := by
  decide

theorem witness_AbsorbXorsBlockAndIssuesPermutation :
    255 < 256 ∧ busyState.busy = true ∧ State.reset.busy = false ∧ 12 % 8 ≠ 0 ∧ 200 < 208 ∧
    (200 % 8 = 0 ∧ 200 ≤ 200) ∧ (0 % 8 = 0 ∧ 0 ≤ 200) ∧
    (opField 0x00000012 = 2 ∧ rsv0Field 0x00000012 ≠ 0) ∧ (opField 0x00010002 = 2 ∧ rsv1Field 0x00010002 ≠ 0) := by
  decide

theorem witness_PermuteIssuesOnePermutation :
    busyState.busy = true ∧ State.reset.busy = false ∧ State.reset.rounds.toNat ≤ 24 ∧
    ({ State.reset with rounds := 0 } : State).rounds = 0 ∧ (opField 0x00000103 = 3 ∧ argField 0x00000103 ≠ 0) ∧
    (opField 0x00000013 = 3 ∧ rsv0Field 0x00000013 ≠ 0) ∧ (opField 0x00010003 = 3 ∧ rsv1Field 0x00010003 ≠ 0) := by
  decide

theorem witness_ExtractCopiesSerialisation :
    255 < 256 ∧ busyState.busy = true ∧ State.reset.busy = false ∧ 200 < 201 ∧ 200 ≤ 200 ∧ 0 ≤ 200 ∧
    loaded.outBuf.wf = true ∧ (199 < 200 ∧ 7 < 8) ∧ 200 ≤ 200 ∧
    (opField 0x00000014 = 4 ∧ rsv0Field 0x00000014 ≠ 0) ∧ (opField 0x00010004 = 4 ∧ rsv1Field 0x00010004 ≠ 0) := by
  decide

theorem witness_WipeRestoresTheResetState :
    busyState.busy = true ∧ (loaded.busy = false ∧ loaded.pending = false) ∧
    (opField 0x00000105 = 5 ∧ argField 0x00000105 ≠ 0) ∧ (opField 0x00000015 = 5 ∧ rsv0Field 0x00000015 ≠ 0) ∧
    (opField 0x00010005 = 5 ∧ rsv1Field 0x00010005 ≠ 0) := by decide

theorem witness_ClrerrClearsTheErrorRecord :
    (busyState.busy = true ∧ busyState.err = false) ∧ (errState.busy = false) ∧
    (State.reset.err = false ∧ State.reset.errCode = 0) ∧
    (opField 0x00000106 = 6 ∧ argField 0x00000106 ≠ 0) ∧ (opField 0x00000016 = 6 ∧ rsv0Field 0x00000016 ≠ 0) ∧
    (opField 0x00010006 = 6 ∧ rsv1Field 0x00010006 ≠ 0) := by decide

/-- Both ways a CMD access is rejected by the bus: the width, and the alignment. -/
theorem witness_OneErrorCodeInPriorityOrder :
    (engineMoves (withOp (.write 0x200 .w8 3) busyState) = false ∧ Width.w8 ≠ Width.w4 ∧
      0x200 ≤ (0x200 : BitVec 12).toNat) ∧
    (engineMoves (withOp (.write 0x203 .w4 3) busyState) = false ∧ (0x203 : BitVec 12).toNat ≤ 0x203 ∧
      (0x203 : BitVec 12).toNat % 4 ≠ 0) := by decide

/-- One word for each case of R143, in its order. -/
theorem witness_OneErrorCodeInPriorityOrder_words :
    seen (·.errCode) (issue 0x00001901 busyState) = some 5 ∧ seen (·.errCode) (issue 0x00011901 State.reset) = some 1 ∧
    seen (·.errCode) (issue 0x00001901 State.reset) = some 2 ∧ seen (·.errCode) (issue 0x0000D002 State.reset) = some 3 ∧
    seen (·.errCode) (issue 0x0000C904 State.reset) = some 4 ∧ seen (·.errCode) (issue 0x00000003 errState) = some 2 := by
  decide

theorem witness_CommandFrame :
    (∃ t, exec (.init 24) loaded = .next t) ∧ (∃ t, exec (.absorb 8) loaded = .next t ∧ 8 ≤ 8 * 1) ∧
    (∃ t, exec .permute loaded = .next t) ∧
    (∃ t, exec (.extract 200) loaded = .next t ∧ loaded.outBuf.wf = true ∧ 200 ≤ 200) ∧
    (∃ t, exec .wipe loaded = .next t) ∧ (∃ t, exec .clrerr errState = .next t) ∧
    (∃ t, exec (.init 25) errState = .next t ∧ errState.err = true) :=
  ⟨⟨_, rfl⟩, ⟨_, rfl, by decide⟩, ⟨_, rfl⟩, ⟨_, rfl, by decide, by decide⟩, ⟨_, rfl⟩, ⟨_, rfl⟩, ⟨_, rfl, rfl⟩⟩

theorem witness_DecodeOfEncode : (Instr.init 255).WellFormed ∧ (Instr.absorb 0).WellFormed ∧ Instr.permute.WellFormed ∧
    (Instr.extract 201).WellFormed ∧ Instr.wipe.WellFormed ∧ Instr.clrerr.WellFormed := by decide

theorem witness_EncodeOfDecode : decode 0x0000FF01 = .ok (.init 255) ∧ decode 0x00000003 = .ok .permute := by decide

theorem witness_IllegalWordsAreThoseOfTheRule :
    (decode 0x00000000 = .error .reservedOp ∧ decode 0x0000000F = .error .reservedOp ∧
      decode 0x000000F1 = .error .rsv0NotZero ∧ decode 0xFFFF0001 = .error .rsv1NotZero ∧
      decode 0x0000FF06 = .error .argNotZero) ∧ State.reset.busy = false := by decide

theorem witness_StepRunsTheDecodedCommand :
    engineMoves (withOps [cmdWrite 0x00000C01, .wait] busyState) = false ∧
    (withOps [cmdWrite 0x00000C01, .wait] busyState).queue = [.write cmdOffset .w4 0x00000C01, .wait] ∧
    decode ((0x00000C01 : BitVec 64).setWidth 32) = .ok (.init 12) ∧
    decode (BitVec.ofNat 32 0x00000C01) = .ok (.init 12) := by decide

theorem witness_CompletionAppliesThePermutation :
    (dueState.pending = true ∧ dueState.delay = 0 ∧ dueState.rounds.toNat ≤ 24) ∧
    (busyState.pending = true ∧ busyState.queue = [] ∧ busyState.rounds.toNat ≤ 24) ∧
    24 < ({ dueState with rounds := 25 } : State).rounds.toNat ∧ State.reset.pending = false := by decide

theorem witness_SilentHostLeavesTheEngineAlone :
    (State.reset.queue = [] ∧ State.reset.pending = false) ∧
    (busyState.queue = [] ∧ busyState.pending = true ∧ busyState.rounds.toNat ≤ 24) := by decide

theorem witness_ResetEventRestoresEveryRegister :
    engineMoves (withOps [.reset, cmdWrite 0x00000003] busyState) = false ∧
    (withOps [.reset, cmdWrite 0x00000003] busyState).queue = .reset :: [.write cmdOffset .w4 0x00000003] := by decide

theorem witness_ResetAndWipeValues :
    loaded.busy = false ∧ loaded.pending = loaded.busy ∧ ∃ t, exec .wipe loaded = .next t :=
  ⟨rfl, rfl, _, rfl⟩

theorem witness_StepKeepsTheInvariant :
    (dueState.Inv ∧ ∃ t, step dueState = .next t) ∧
    (State.reset.Inv ∧ ∃ t, step State.reset = .next t) :=
  ⟨⟨by unfold State.Inv; decide, _, rfl⟩, by unfold State.Inv; decide, _, rfl⟩

theorem witness_WritersOfLanesAndRounds :
    (∃ t, step (withOp (command (.init 12)) loaded) = .next t ∧ t.lanes ≠ loaded.lanes ∧ t.rounds ≠ loaded.rounds) ∧
    (∃ t, step (withOp .reset { loaded with rounds := 3 }) = .next t ∧ t.lanes ≠ loaded.lanes ∧ t.rounds ≠ 3) ∧
    (∃ t, step { dueState with rounds := 1 } = .next t ∧ t.lanes ≠ dueState.lanes) :=
  ⟨⟨_, rfl, by decide +kernel, by decide⟩, ⟨_, rfl, by decide +kernel, by decide⟩, ⟨_, rfl, by decide +kernel⟩⟩

theorem witness_WritersOfTheBuffers :
    (∃ t, step (withOp (storeByte 0x0C7 1) State.reset) = .next t ∧ t.inBuf ≠ State.reset.inBuf) ∧
    (∃ t, step (withOp (command .wipe) loaded) = .next t ∧ t.inBuf ≠ loaded.inBuf ∧ t.outBuf ≠ loaded.outBuf) ∧
    (∃ t, step (withOp (command (.extract 3)) loaded) = .next t ∧ t.outBuf ≠ loaded.outBuf) :=
  ⟨⟨_, rfl, by decide⟩, ⟨_, rfl, by decide, by decide⟩, ⟨_, rfl, by decide⟩⟩

theorem witness_WritersOfBusy :
    (∃ t, step (withOp (command .permute) State.reset) = .next t ∧ State.reset.busy = false ∧ t.busy = true) ∧
    (∃ t, step dueState = .next t ∧ dueState.busy = dueState.pending ∧ engineMoves dueState = true ∧ t.busy = false) ∧
    (∃ t, step (withOp .reset busyState) = .next t ∧ ResetNow (withOp .reset busyState) ∧ t.busy = false) ∧
    (200 % 8 = 0 ∧ 200 ≤ 200) ∧ (∃ t, exec (.init 24) State.reset = .next t) ∧
    busyState.busy = true :=
  ⟨⟨_, rfl, rfl, rfl⟩, ⟨_, rfl, rfl, rfl, rfl⟩, ⟨_, rfl, ⟨rfl, _, rfl⟩, rfl⟩, by decide, ⟨_, rfl⟩, rfl⟩

/-- Each cause of rejection, at the first operand beyond its range; the hypothesis of `WritersOfBusy` and of
`ErrorRecordIsSticky`. -/
theorem witness_RejectionCause :
    RejectionCause 0x00000003 busyState ∧ RejectionCause 0x00000000 State.reset ∧
    RejectionCause 0x00001901 State.reset ∧ RejectionCause 0x00000C02 State.reset ∧
    RejectionCause 0x0000D002 State.reset ∧ RejectionCause 0x0000C904 State.reset :=
  ⟨.inl rfl, .inr (.inl ⟨_, rfl⟩), .inr (.inr (.inl ⟨25, rfl, by decide⟩)),
    .inr (.inr (.inr (.inl ⟨12, rfl, by decide⟩))), .inr (.inr (.inr (.inl ⟨208, rfl, by decide⟩))),
    .inr (.inr (.inr (.inr ⟨201, rfl, by decide⟩)))⟩

/-- A rejected ABSORB leaves BUSY at 0. -/
theorem test_rejected_absorb_keeps_busy : seen (·.busy) (issue 0x00000C02 State.reset) = some false := by decide

theorem witness_ErrorRecordIsSticky :
    (∃ t, step (withOp (command (.absorb 12)) errState) = .next t ∧ errState.err = true ∧ t.err = true) ∧
    (∃ t, step (withOp (command .clrerr) errState) = .next t ∧ errState.err = true ∧ t.err = false) ∧
    (∃ t, step (withOp (command (.init 25)) State.reset) = .next t ∧ State.reset.err = false ∧ t.err = true) ∧
    (∃ t, exec .permute State.reset = .next t) :=
  ⟨⟨_, rfl, rfl, rfl⟩, ⟨_, rfl, rfl, rfl⟩, ⟨_, rfl, rfl, rfl⟩, ⟨_, rfl⟩⟩

/-- Each row of the map at its last access, and just beyond each row. -/
theorem witness_AddressMapDecidesEveryAccess :
    engineMoves (withOp (.read 0x0C0 .w8) busyState) = false ∧
    (MapPermits 0x0C7 1 .write ∧ MapPermits 0x0C0 8 .read ∧ MapPermits 0x1C0 8 .read ∧ MapPermits 0x200 4 .write ∧
      MapPermits 0x204 4 .read) ∧
    (¬ MapPermits 0x0C8 1 .write ∧ ¬ MapPermits 0x0FF 1 .read ∧ ¬ MapPermits 0x1C8 8 .read ∧
      ¬ MapPermits 0x100 1 .write ∧ ¬ MapPermits 0x200 4 .read ∧ ¬ MapPermits 0x204 4 .write ∧
      ¬ MapPermits 0x208 4 .read ∧ ¬ MapPermits 0x0C4 8 .read) := by
  refine ⟨rfl, ⟨?_, ?_, ?_, ?_, ?_⟩, ?_, ?_, ?_, ?_, ?_, ?_, ?_, ?_⟩ <;> (unfold MapPermits; decide)

theorem witness_InBufAccesses :
    engineMoves (withOp (.write 0x0C0 .w8 1) busyState) = false ∧ (0x0C0 : BitVec 12).toNat ≤ 0x0C7 ∧
    (0x0C0 : BitVec 12).toNat % Width.w8.bytes = 0 ∧ busyState.inBuf.wf = true ∧
    engineMoves (withOp (.read 0x0C7 .w1) busyState) = false ∧ (0x0C7 : BitVec 12).toNat ≤ 0x0C7 ∧
    (0x0C7 : BitVec 12).toNat % Width.w1.bytes = 0 := by decide

theorem witness_OutBufReads :
    engineMoves (withOp (.read 0x1C0 .w8) busyState) = false ∧ 0x100 ≤ (0x1C0 : BitVec 12).toNat ∧
    (0x1C0 : BitVec 12).toNat ≤ 0x1C7 ∧ (0x1C0 : BitVec 12).toNat % Width.w8.bytes = 0 ∧
    0x100 ≤ (0x100 : BitVec 12).toNat ∧ (0x100 : BitVec 12).toNat % Width.w2.bytes = 0 := by decide

theorem witness_RegisterAccesses :
    engineMoves (withOp (.write 0x200 .w4 3) busyState) = false ∧
    engineMoves (withOp (.read 0x204 .w4) busyState) = false ∧
    (¬ ((0x204 : BitVec 12) = 0x200 ∧ Width.w4 = .w4) ∧ ¬ ((0x200 : BitVec 12) = 0x204 ∧ Width.w4 = .w4)) ∧
    (0x200 ≤ (0x200 : BitVec 12).toNat ∧ (0x207 : BitVec 12).toNat ≤ 0x207) := by decide

theorem witness_ExtractedLaneReadsBackUnchanged : loaded.busy = false ∧ loaded.outBuf.wf = true ∧ 24 < 25 := by decide

/-- An idle engine, and one whose completion is exactly two operations away. -/
theorem witness_RepeatedReadReturnsTheSameValue :
    State.reset.pending = false ∧ 2 ≤ ({ busyState with delay := 2 } : State).delay ∧
    (withOps [.read 0x204 .w4, .read 0x204 .w4, .wait] busyState).queue =
      .read 0x204 .w4 :: .read 0x204 .w4 :: [.wait] ∧ MapPermits (0x204 : BitVec 12).toNat Width.w4.bytes .read :=
  ⟨rfl, by decide, rfl, by unfold MapPermits; decide⟩

theorem witness_InstancesShareNothing :
    ∃ q, Platform.stepInstance 0 ⟨[busyState, State.reset]⟩ = .next q ∧
      (⟨[busyState, State.reset]⟩ : Platform).engines[0]? = some busyState := ⟨_, rfl, rfl⟩

/-- The ranges of the statements about the permutation. -/
theorem witness_permutation_ranges :
    (4 < 5 ∧ 63 < 64 ∧ 0 < 25 ∧ 24 < 25) ∧ (0 < 24 ∧ 23 < 24) ∧ (0 ≤ 24 ∧ 24 ≤ 24) ∧ 6 < 7 ∧
    (2 < 64 ∧ ∀ j < 7, 2 ≠ 2 ^ j - 1) := by decide

/-- A pending and an idle engine whose host waits. -/
theorem witness_WaitEnds :
    ((withOps [.wait] busyState).Inv ∧ (withOps [.wait] busyState).queue = .wait :: []) ∧
    ((withOps [.wait] State.reset).Inv ∧ (withOps [.wait] State.reset).queue = .wait :: []) := by
  unfold State.Inv; decide

/-- Two blocks of 8 bytes at rate 8. -/
def blocks : List (List Byte) := [[1, 2, 3, 4, 5, 6, 7, 8], [0, 0, 0, 0, 0, 0, 0, 0]]

/-- A host that absorbs the two blocks and then reads STATUS. -/
def absorbing : State := withOps (blocks.flatMap (fun B => loadBlk B ++ absorbW 8) ++ [.check]) State.reset

theorem witness_AbsorbPhaseComputesTheRecurrence :
    8 % 8 = 0 ∧ 8 ≤ 200 ∧ (∀ B ∈ blocks, B.length = 8) ∧ absorbing.Inv ∧ absorbing.busy = false ∧
    absorbing.queue = blocks.flatMap (fun B => loadBlk B ++ absorbW 8) ++ [.check] := by
  unfold State.Inv; decide

/-- An engine whose permutation is due, under a host that waits before it wipes. -/
def waiting : State := withOps [.wait, command .wipe] dueState

theorem witness_WaitingHostIsNeverRejectedAsBusy :
    waiting.Inv ∧ waitsBeforeCommands waiting.busy waiting.queue = true ∧ (∃ t, step waiting = .next t) ∧
    waitsBeforeCommands true [command .wipe] = false :=
  ⟨by unfold State.Inv; decide, by decide, ⟨_, rfl⟩, by decide⟩

end Sys2Proof.Tests
end

