-- ==== Sys2Proof/Proofs/State.lean ====
section
/-! PROOFS. The statements about the state (10_state.md): the values after reset and WIPE (R35), the writers of BUSY
(R31) and the sticky error record (R32). -/

namespace Sys2Proof.Machine

/-! ### The values after reset and after WIPE -/

/-- From BUSY = PENDING = 0, WIPE leaves the engine as reset does; only the model's own fields stay. -/
theorem wipeEffect_eq_reset {s : State} (hb : s.busy = false) (hp : s.pending = false) :
    wipeEffect s = { State.reset with
      queue := s.queue, replies := s.replies, delay := s.delay, draws := s.draws, inst := s.inst } := by
  cases s
  cases hb
  cases hp
  rfl

/-- The bits of STATUS after reset: ROUNDS = 24 alone (R30, R35). -/
theorem getLsbD_status_reset {j : Nat} (hj : j < 32) :
    (status State.reset).getLsbD j = decide (j = 11 ∨ j = 12) := by
  rw [getLsbD_status]
  decide +revert

/-- Settles O18: both kinds of state are the reset state but for the model's own fields, which no clause reads. -/
theorem resetAndWipeValues : Obligations.ResetAndWipeValues := by
  unfold Obligations.ResetAndWipeValues
  intro t ht
  obtain ⟨q, r, d, n, k, rfl⟩ : ∃ q r d n k,
      t = { State.reset with queue := q, replies := r, delay := d, draws := n, inst := k } := by
    rcases ht with rfl | ⟨s, hb, hp, hw⟩
    · exact ⟨_, _, _, _, _, rfl⟩
    · rw [exec_ok hb rfl] at hw
      cases hw
      exact ⟨_, _, _, _, _, wipeEffect_eq_reset hb (hp.trans hb)⟩
  exact ⟨fun i _ => laneOf_zeroLanes i, rfl, fun _ => rfl, fun _ => rfl, rfl, rfl, rfl, rfl,
    fun _ hj => getLsbD_status_reset hj⟩

/-! ### BUSY and the error record under a command -/

/-- The effect of a command that issues no permutation leaves BUSY alone. -/
theorem commandEffect_busy {i : Instr} (ha : ∀ len, i ≠ .absorb len) (hp : i ≠ .permute) (s : State) :
    (commandEffect i s).busy = s.busy := by
  cases i with
  | absorb len => exact absurd rfl (ha len)
  | permute => exact absurd rfl hp
  | init | extract | wipe | clrerr => rfl

/-- The effect of a command other than WIPE and CLRERR leaves the error record alone. -/
theorem commandEffect_errorRecord {i : Instr} (hw : i ≠ .wipe) (hc : i ≠ .clrerr) (s : State) :
    (commandEffect i s).err = s.err ∧ (commandEffect i s).errCode = s.errCode := by
  cases i with
  | wipe => exact absurd rfl hw
  | clrerr => exact absurd rfl hc
  | init | absorb | permute | extract =>
    simp [commandEffect, initEffect, absorbEffect, permuteEffect, extractEffect]

theorem absorbError_eq_none {len : Nat} : absorbError len = none ↔ len % 8 = 0 ∧ len ≤ 200 := by
  simp [absorbError]

@[simp] theorem cmdError_busy (e : CmdError) (s : State) : (cmdError e s).busy = s.busy := by
  rw [cmdError_eq, State.setErr_busy]

/-- While BUSY = 1 every word is rejected with code 5 (R80, R143). -/
theorem issue_busy_rejected (w : CmdWord) {s : State} (h : s.busy = true) :
    ∃ t, issue w s = .next t ∧ Rejected 5 s t := by
  cases hd : decode w with
  | error e => exact ⟨_, (issue_error hd).trans (runCommand_busy h), cmdError_rejected .cmdWhileBusy s⟩
  | ok i => rw [issue_ok hd]; exact exec_busy h

/-- What a CMD write can do: it records an error, or it is the effect of an accepted command. -/
theorem issue_rejects_or_accepts {w : CmdWord} {s t : State} (h : issue w s = .next t) :
    (∃ e, t = cmdError e s) ∨
    (s.busy = false ∧ ∃ i, decode w = .ok i ∧ operandError i = none ∧ t = commandEffect i s) := by
  rcases issue_cases h with ⟨_, ht⟩ | ⟨_, _, ht⟩ | ⟨_, _, e, _, _, ht⟩ | haccept
  · exact .inl ⟨_, ht⟩
  · exact .inl ⟨_, ht⟩
  · exact .inl ⟨e, ht⟩
  · exact .inr haccept

/-- A CMD write leaves BUSY, or is an accepted ABSORB or PERMUTE and sets it. -/
theorem issue_busy {w : CmdWord} {s t : State} (h : issue w s = .next t) :
    t.busy = s.busy ∨
    ∃ i, decode w = .ok i ∧ ((∃ len, i = .absorb len ∧ len % 8 = 0 ∧ len ≤ 200) ∨ i = .permute) ∧ t.busy = true := by
  rcases issue_rejects_or_accepts h with ⟨e, rfl⟩ | ⟨hb, i, hd, hop, rfl⟩
  · exact .inl (cmdError_busy e s)
  · cases i with
    | absorb len => exact .inr ⟨_, hd, .inl ⟨len, rfl, absorbError_eq_none.1 hop⟩, rfl⟩
    | permute => exact .inr ⟨_, hd, .inr rfl, rfl⟩
    | init | extract | wipe | clrerr => exact .inl (commandEffect_busy (by simp) (by simp) s)

/-- A CMD write leaves the error record, or records an error and keeps an earlier code, or is an accepted CLRERR or
WIPE and clears the record. -/
theorem issue_errorRecord {w : CmdWord} {s t : State} (h : issue w s = .next t) :
    (t.err = s.err ∧ t.errCode = s.errCode) ∨
    (t.err = true ∧ (s.err = true → t.errCode = s.errCode)) ∨
    (t.err = false ∧ s.busy = false ∧ (decode w = .ok .clrerr ∨ decode w = .ok .wipe)) := by
  rcases issue_rejects_or_accepts h with ⟨e, rfl⟩ | ⟨hb, i, hd, -, rfl⟩
  · obtain ⟨-, herr, hcode⟩ := cmdError_rejected e s
    exact .inr (.inl ⟨herr, fun hs => by rw [hcode, if_pos hs]⟩)
  · cases i with
    | wipe => exact .inr (.inr ⟨rfl, hb, .inr hd⟩)
    | clrerr => exact .inr (.inr ⟨rfl, hb, .inl hd⟩)
    | init | absorb | permute | extract => exact .inl (commandEffect_errorRecord (by simp) (by simp) s)

/-! ### BUSY and the error record under a step -/

/-- The completion clears BUSY (R84). -/
theorem step_completion_busy {s t : State} (hm : engineMoves s = true) (h : step s = .next t) : t.busy = false := by
  rw [step_completion hm] at h
  obtain ⟨-, rfl⟩ := complete_cases h
  rfl

/-- The reset clears BUSY (R160). -/
theorem step_reset_busy {s t : State} (hr : ResetNow s) (h : step s = .next t) : t.busy = false := by
  obtain ⟨hm, rest, hq⟩ := hr
  rw [step_host hm hq] at h
  cases h
  rfl

/-- A step leaves BUSY, or is the completion or the reset, or is a CMD write of an accepted ABSORB or PERMUTE, which
sets it. -/
theorem step_busy {s t : State} (h : step s = .next t) :
    t.busy = s.busy ∨
    ((engineMoves s = true ∧ s.pending = true) ∨ ResetNow s) ∧ t.busy = false ∨
    (∃ i, CommandWritten i s ∧ ((∃ len, i = .absorb len ∧ len % 8 = 0 ∧ len ≤ 200) ∨ i = .permute)) ∧
      t.busy = true := by
  rcases step_changes h with ⟨hm, hp, _, rfl⟩ | ⟨_, _, _, rfl⟩ | ⟨_, _, _, _, _, _, _, _, rfl⟩ |
    ⟨hm, v, rest, hq, hi⟩ | ⟨hr, _, rfl⟩
  case inl => exact .inr (.inl ⟨.inl ⟨hm, hp⟩, rfl⟩)
  case inr.inl => exact .inl rfl
  case inr.inr.inl => exact .inl rfl
  case inr.inr.inr.inl =>
    rcases issue_busy hi with hb | ⟨i, hd, hstart, hb⟩
    · exact .inl hb
    · exact .inr (.inr ⟨⟨i, ⟨hm, v, rest, hq, hd⟩, hstart⟩, hb⟩)
  case inr.inr.inr.inr => exact .inr (.inl ⟨.inr hr, rfl⟩)

/-- A step leaves the error record, or is a CMD write that records an error and keeps an earlier code, or is the reset
or an accepted CLRERR or WIPE, which clear the record. -/
theorem step_errorRecord {s t : State} (h : step s = .next t) :
    (t.err = s.err ∧ t.errCode = s.errCode) ∨
    (t.err = true ∧ (s.err = true → t.errCode = s.errCode) ∧
      engineMoves s = false ∧ ∃ v rest, s.queue = .write cmdOffset .w4 v :: rest) ∨
    (t.err = false ∧ (ResetNow s ∨ (s.busy = false ∧ (CommandWritten .clrerr s ∨ CommandWritten .wipe s)))) := by
  rcases step_changes h with ⟨_, _, _, rfl⟩ | ⟨_, _, _, rfl⟩ | ⟨_, _, _, _, _, _, _, _, rfl⟩ |
    ⟨hm, v, rest, hq, hi⟩ | ⟨hr, _, rfl⟩
  case inl => exact .inl ⟨rfl, rfl⟩
  case inr.inl => exact .inl ⟨rfl, rfl⟩
  case inr.inr.inl => exact .inl ⟨rfl, rfl⟩
  case inr.inr.inr.inl =>
    rcases issue_errorRecord hi with hsame | ⟨herr, hcode⟩ | ⟨herr, hb, hd⟩
    · exact .inl hsame
    · exact .inr (.inl ⟨herr, hcode, hm, v, rest, hq⟩)
    · exact .inr (.inr ⟨herr, .inr ⟨hb, hd.imp (⟨hm, v, rest, hq, ·⟩) (⟨hm, v, rest, hq, ·⟩)⟩⟩)
  case inr.inr.inr.inr => exact .inr (.inr ⟨rfl, .inl hr⟩)

/-- Settles O23: the first two clauses read the cases of `step_busy`, the others are one command, completion or reset
each. -/
theorem writersOfBusy : Obligations.WritersOfBusy := by
  unfold Obligations.WritersOfBusy
  refine ⟨?sets, ?clears, fun s t _ => step_completion_busy, fun s t => step_reset_busy,
    fun s hb => ⟨_, exec_ok hb rfl, rfl⟩,
    fun s len hb h8 h200 => ⟨_, exec_ok hb (absorbError_eq_none.2 ⟨h8, h200⟩), rfl⟩,
    ?others, ?rejected, fun w s => issue_busy_rejected w⟩
  case sets =>
    intro s t h hs ht
    rcases step_busy h with hb | ⟨_, hb⟩ | ⟨hcmd, _⟩
    · simp [hs, ht] at hb
    · simp [ht] at hb
    · exact hcmd
  case clears =>
    intro s t h hs ht
    rcases step_busy h with hb | ⟨hcause, _⟩ | ⟨_, hb⟩
    · simp [hs, ht] at hb
    · exact hcause
    · simp [ht] at hb
  case others =>
    intro i s t hb h ha hp
    rw [exec_eq] at h
    rcases runCommand_cases h with ⟨_, rfl⟩ | ⟨_, e, _, rfl⟩ | ⟨_, _, rfl⟩
    · rw [cmdError_busy, hb]
    · rw [cmdError_busy, hb]
    · rw [commandEffect_busy ha hp, hb]
  case rejected =>
    intro w s hcause
    obtain ⟨_, t, hi, hsame, -⟩ := issue_rejected hcause
    obtain ⟨_, _, _, _, _, hbusy, _⟩ := hsame
    exact ⟨t, hi, hbusy⟩

/-! ### The code of a rejection -/

/-- Which commands have an operand out of range, and the cause each records (R64). -/
theorem operandError_some {i : Instr} {e : CmdError} (h : operandError i = some e) :
    (∃ nr, i = .init nr ∧ e = .badRounds) ∨ (∃ len, i = .absorb len ∧ e = .badAbsorbLen) ∨
    (∃ len, i = .extract len ∧ e = .badExtractLen) := by
  cases i with
  | init nr =>
    rw [operandError, roundsError] at h
    split at h <;> cases h
    exact .inl ⟨nr, rfl, rfl⟩
  | absorb len =>
    rw [operandError, absorbError] at h
    split at h <;> cases h
    exact .inr (.inl ⟨len, rfl, rfl⟩)
  | extract len =>
    rw [operandError, extractError] at h
    split at h <;> cases h
    exact .inr (.inr ⟨len, rfl, rfl⟩)
  | permute | wipe | clrerr => cases h

/-- An idle engine accepts a command whose operand is in range: no cause of rejection holds. -/
theorem not_rejectionCause_of_accepted {w : CmdWord} {i : Instr} {s : State} (hb : s.busy = false)
    (hd : decode w = .ok i) (hop : operandError i = none) : ¬ RejectionCause w s := by
  rintro (h | ⟨e, h⟩ | ⟨nr, h, hbad⟩ | ⟨len, h, hbad⟩ | ⟨len, h, hbad⟩)
  · simp [hb] at h
  · rw [hd] at h; cases h
  · rw [hd] at h; cases h
    simp [operandError, roundsError] at hop; omega
  · rw [hd] at h; cases h
    have := absorbError_eq_none.1 hop; omega
  · rw [hd] at h; cases h
    simp [operandError, extractError] at hop; omega

/-! ### An error record blocks no command -/

theorem sameButError_setErr (s : State) (b b' : Bool) (c c' : BitVec 4) :
    SameButError (s.setErr b c) (s.setErr b' c') := by
  simp [SameButError]

/-- The effect of a command does not depend on the error record. -/
theorem commandEffect_setErr (i : Instr) (s : State) (b : Bool) (c : BitVec 4) :
    SameButError (commandEffect i s) (commandEffect i (s.setErr b c)) := by
  cases i <;> exact ⟨rfl, rfl, rfl, rfl, rfl, rfl, rfl, rfl, rfl, rfl, rfl⟩

theorem cmdError_setErr (e : CmdError) (s : State) (b : Bool) (c : BitVec 4) :
    SameButError (cmdError e s) (cmdError e (s.setErr b c)) := by
  rw [cmdError_eq, cmdError_eq]
  exact sameButError_setErr s _ _ _ _

/-- A command does the same whatever the error record, but for the record itself (R32). -/
theorem exec_setErr {i : Instr} {s t : State} (h : exec i s = .next t) (b : Bool) (c : BitVec 4) :
    ∃ u, exec i (s.setErr b c) = .next u ∧ SameButError t u := by
  rw [exec_eq] at h
  rcases runCommand_cases h with ⟨hb, rfl⟩ | ⟨hb, e, he, rfl⟩ | ⟨hb, he, rfl⟩
  · exact ⟨_, (exec_eq ..).trans (runCommand_busy hb), cmdError_setErr ..⟩
  · exact ⟨_, (exec_eq ..).trans (by rw [he]; exact runCommand_bad hb), cmdError_setErr ..⟩
  · exact ⟨_, exec_ok hb he, commandEffect_setErr ..⟩

/-! ### A bus error is a fault -/

theorem busRead_fault {off : BitVec 12} {n : Width} (h : ¬ MapPermits off.toNat n.bytes .read) (s : State) :
    busRead off n s = .fault (.busError off n .read) := by
  rw [busRead, if_neg (mt (permitted_iff ..).1 h)]

theorem busWrite_fault {off : BitVec 12} {n : Width} (h : ¬ MapPermits off.toNat n.bytes .write) (v : BitVec 64)
    (s : State) : busWrite off n v s = .fault (.busError off n .write) := by
  rw [busWrite, if_neg (mt (permitted_iff ..).1 h)]

/-- Settles O24: the clause on rejections reads the cases of `issue_cases`, the next three those of
`step_errorRecord`, and the last two are `exec_setErr` and the bus faults. -/
theorem errorRecordIsSticky : Obligations.ErrorRecordIsSticky := by
  unfold Obligations.ErrorRecordIsSticky
  refine ⟨?code, ?keeps, ?clears, ?sets, ?blocks, ?bus⟩
  case code =>
    intro w s hcause
    obtain ⟨t, hi⟩ := issue_next w s
    refine ⟨t, hi, ?_⟩
    rcases issue_cases hi with ⟨hb, rfl⟩ | ⟨hb, ⟨_, hd⟩, rfl⟩ | ⟨hb, i, e, hd, he, rfl⟩ | ⟨hb, i, hd, hop, _⟩
    · rw [cmdError_eq]
      simp [hb, errorCode]
    · rw [cmdError_eq]
      simp [hb, hd, errorCode]
    · rw [cmdError_eq]
      rcases operandError_some he with ⟨_, rfl, rfl⟩ | ⟨_, rfl, rfl⟩ | ⟨_, rfl, rfl⟩ <;> simp [hb, hd, errorCode]
    · exact absurd hcause (not_rejectionCause_of_accepted hb hd hop)
  case keeps =>
    intro s t h hs ht
    rcases step_errorRecord h with ⟨_, hcode⟩ | ⟨_, hcode, _⟩ | ⟨herr, _⟩
    · exact hcode
    · exact hcode hs
    · simp [ht] at herr
  case clears =>
    intro s t h hs ht
    rcases step_errorRecord h with ⟨herr, _⟩ | ⟨herr, _⟩ | ⟨_, hcause⟩
    · simp [hs, ht] at herr
    · simp [ht] at herr
    · exact hcause
  case sets =>
    intro s t h hs ht
    rcases step_errorRecord h with ⟨herr, _⟩ | ⟨_, _, hwrite⟩ | ⟨herr, _⟩
    · simp [hs, ht] at herr
    · exact hwrite
    · simp [ht] at herr
  case blocks =>
    intro i s t code h
    obtain ⟨u, hu, hlanes, hrounds, hin, hout, hpending, hbusy, _⟩ := exec_setErr h true code
    exact ⟨u, hu, hlanes, hrounds, hin, hout, hpending, hbusy⟩
  case bus =>
    intro s off n rest hm
    refine ⟨fun hq hmap => ?_, fun v hq hmap => ?_⟩
    · rw [step_host hm hq]; exact busRead_fault hmap _
    · rw [step_host hm hq]; exact busWrite_fault hmap v _

end Sys2Proof.Machine
end

