-- ==== Sys2Proof/Proofs/Memory.lean ====
section
/-! PROOFS. The statements about the host window (20_memory.md): the address map (R43), the accesses of IN_BUF (R46) and
the accesses of the registers (R48). -/

namespace Sys2Proof.Machine

/-! ### The host's access as a step -/

theorem step_read {s : State} {off : BitVec 12} {n : Width} {rest : List HostOp} (hm : engineMoves s = false)
    (hq : s.queue = .read off n :: rest) : step s = busRead off n (s.takeOp rest) :=
  step_host hm hq

theorem step_write {s : State} {off : BitVec 12} {n : Width} {v : BitVec 64} {rest : List HostOp}
    (hm : engineMoves s = false) (hq : s.queue = .write off n v :: rest) :
    step s = busWrite off n v (s.takeOp rest) :=
  step_host hm hq

/-! ### Permitted accesses -/

theorem busRead_permitted {off : BitVec 12} {n : Width} (h : MapPermits off.toNat n.bytes .read) (s : State) :
    busRead off n s = .next (s.addReply ⟨off, n, readValue off n s⟩) := by
  rw [busRead, if_pos ((permitted_iff ..).2 h)]

theorem busWrite_inBuf {off : BitVec 12} {n : Width} (h : MapPermits off.toNat n.bytes .write)
    (hr : regionOf off = .inBuf) (v : BitVec 64) (s : State) :
    busWrite off n v s = .next (s.setInBuf (s.inBuf.writeBytes off.toNat (leBytes v n.bytes))) := by
  rw [busWrite, if_pos ((permitted_iff ..).2 h), hr]

/-- A permitted write stores to IN_BUF or issues a command, and neither stops the machine. -/
theorem busWrite_next {off : BitVec 12} {n : Width} (h : MapPermits off.toNat n.bytes .write) (v : BitVec 64)
    (s : State) : ∃ t, busWrite off n v s = .next t := by
  have hp := (permitted_iff ..).2 h
  rcases permitted_write_region hp with hr | ⟨hr, rfl⟩
  · exact ⟨_, busWrite_inBuf h hr v s⟩
  · obtain rfl := cmd_offset hp hr
    rw [busWrite_cmd]
    exact issue_next ..

/-- Settles O25: the permitted accesses are `busRead_permitted` and `busWrite_next`, the others the bus faults. -/
theorem addressMapDecidesEveryAccess : Obligations.AddressMapDecidesEveryAccess := by
  unfold Obligations.AddressMapDecidesEveryAccess
  intro s off n rest hm
  refine ⟨fun hq => ?_, fun v hq => ?_⟩
  · rw [step_read hm hq]
    exact ⟨fun hmap => ⟨_, busRead_permitted hmap _⟩, fun hmap => busRead_fault hmap _⟩
  · rw [step_write hm hq]
    exact ⟨fun hmap => busWrite_next hmap v _, fun hmap => busWrite_fault hmap v _⟩

/-! ### IN_BUF -/

theorem mapPermits_inBuf {off n : Nat} (h : off ≤ 0x0C7) (ha : off % n = 0) (dir : Direction) :
    MapPermits off n dir :=
  ⟨ha, .inl h⟩

theorem regionOf_inBuf {off : BitVec 12} (h : off.toNat ≤ 0x0C7) : regionOf off = .inBuf := if_pos h

theorem Width.bytes_le (n : Width) : n.bytes ≤ 8 := by
  cases n <;> decide

/-- A value's bytes, stored in a canonical buffer, read back where they were stored (R46). -/
theorem Memory.read_writeBytes_leBytes {m : Memory} {a n k : Nat} (hm : m.wf = true) (ha : a + n ≤ bufBytes)
    (hk : k < n) (v : BitVec 64) : (m.writeBytes a (leBytes v n)).read (a + k) = byteOf v k := by
  rw [Memory.read_writeBytes hm (by simpa using ha), length_leBytes, if_pos (by omega), Nat.add_sub_cancel_left,
    getD_leBytes v hk]

/-- Storing a value's bytes in a canonical buffer changes no other byte (R46). -/
theorem Memory.read_writeBytes_leBytes_outside {m : Memory} {a n x : Nat} (hm : m.wf = true)
    (ha : a + n ≤ bufBytes) (hx : x < a ∨ a + n ≤ x) (v : BitVec 64) :
    (m.writeBytes a (leBytes v n)).read x = m.read x := by
  rw [Memory.read_writeBytes hm (by simpa using ha), length_leBytes, if_neg (by omega)]

/-- The bits of a little-endian read of up to 8 bytes of a buffer (R44). -/
theorem getLsbD_leValue_readBytes (m : Memory) (a : Nat) {n : Nat} (hn : n ≤ 8) (j : Nat) :
    (leValue (m.readBytes a n)).getLsbD j = (decide (j < 8 * n) && (m.read (a + j / 8)).getLsbD (j % 8)) := by
  rw [getLsbD_leValue, getD_readBytes]
  by_cases h : j < 8 * n
  · rw [if_pos (by omega)]
    simp [h, show j < 64 by omega]
  · rw [if_neg (by omega)]
    simp [h]

theorem readValue_inBuf {off : BitVec 12} (h : off.toNat ≤ 0x0C7) (n : Width) (s : State) :
    readValue off n s = leValue (s.inBuf.readBytes off.toNat n.bytes) := by
  rw [readValue, regionOf_inBuf h]

/-- Settles O26: a store is `busWrite_inBuf` and its bytes read back, a load `busRead_permitted` and its bits. -/
theorem inBufAccesses : Obligations.InBufAccesses := by
  unfold Obligations.InBufAccesses
  refine ⟨?store, ?load⟩
  case store =>
    intro s off n v rest hm hq hoff ha
    have hmap := mapPermits_inBuf hoff ha .write
    have hr := regionOf_inBuf hoff
    have hin : off.toNat + n.bytes ≤ bufBytes := inBuf_inside ((permitted_iff ..).2 hmap) hr
    refine ⟨_, (step_write hm hq).trans (busWrite_inBuf hmap hr v _), fun hwf => ⟨?stored, ?kept⟩,
      rfl, rfl, rfl, rfl, rfl, rfl, rfl, rfl, rfl, rfl, rfl⟩
    case stored =>
      intro k hk j hj
      rw [State.inByte, State.setInBuf_inBuf, State.takeOp_inBuf,
        Memory.read_writeBytes_leBytes hwf hin hk, getLsbD_byteOf]
      simp [hj]
    case kept =>
      intro a houtside
      exact Memory.read_writeBytes_leBytes_outside hwf hin houtside v
  case load =>
    intro s off n rest hm hq hoff ha
    refine ⟨_, (step_read hm hq).trans (busRead_permitted (mapPermits_inBuf hoff ha .read) _), fun j => ?_⟩
    rw [readValue_inBuf hoff]
    exact getLsbD_leValue_readBytes s.inBuf off.toNat n.bytes_le j

/-! ### The registers -/

theorem Width.eq_w4 {n : Width} (h : n.bytes = 4) : n = .w4 := by
  cases n with
  | w4 => rfl
  | w1 | w2 | w8 => cases h

/-- The two permitted accesses of the register rows are the 4-byte CMD write and the 4-byte STATUS read (R48). -/
theorem mapPermits_register {off : BitVec 12} {n : Width} {dir : Direction} (hlo : 0x200 ≤ off.toNat)
    (hhi : off.toNat ≤ 0x207) (h : MapPermits off.toNat n.bytes dir) :
    n = .w4 ∧ ((off = cmdOffset ∧ dir = .write) ∨ (off = statusOffset ∧ dir = .read)) := by
  obtain ⟨ha, hrow⟩ := h
  rcases hrow with hin | ⟨_, hout, _⟩ | ⟨_, hcmd, hdir, hn⟩ | ⟨hstatus, _, hdir, hn⟩
  · omega
  · omega
  · have hoff : off.toNat = 0x200 := by rw [hn] at ha; omega
    exact ⟨Width.eq_w4 hn, .inl ⟨BitVec.eq_of_toNat_eq hoff, hdir⟩⟩
  · have hoff : off.toNat = 0x204 := by rw [hn] at ha; omega
    exact ⟨Width.eq_w4 hn, .inr ⟨BitVec.eq_of_toNat_eq hoff, hdir⟩⟩

theorem mapPermits_status : MapPermits statusOffset.toNat Width.w4.bytes .read :=
  (permitted_iff ..).1 (by decide)

/-- The number a STATUS read returns (R30). -/
theorem readValue_status_toNat (s : State) :
    (readValue statusOffset .w4 s).toNat =
      s.busy.toNat + 2 * s.err.toNat + 16 * s.errCode.toNat + 256 * s.rounds.toNat := by
  have hv : readValue statusOffset .w4 s = (status s).setWidth 64 := rfl
  rw [hv, BitVec.toNat_setWidth_of_le (by decide), status_toNat]

/-- Settles O28: the two permitted accesses are run, and `mapPermits_register` leaves no other. -/
theorem registerAccesses : Obligations.RegisterAccesses := by
  unfold Obligations.RegisterAccesses
  refine ⟨?cmd, ?status, ?others⟩
  case cmd =>
    intro s v rest hm hq
    exact (step_write hm hq).trans (busWrite_cmd v _)
  case status =>
    intro s rest hm hq
    exact ⟨_, (step_read hm hq).trans (busRead_permitted mapPermits_status _),
      readValue_status_toNat (s.takeOp rest)⟩
  case others =>
    intro s off n v rest hm hlo hhi
    refine ⟨fun hq hne => ?_, fun hq hne => ?_⟩
    · refine (step_write hm hq).trans (busWrite_fault (fun hmap => ?_) v _)
      obtain ⟨hn, ⟨hoff, -⟩ | ⟨-, hdir⟩⟩ := mapPermits_register hlo hhi hmap
      · exact hne ⟨hoff, hn⟩
      · cases hdir
    · refine (step_read hm hq).trans (busRead_fault (fun hmap => ?_) _)
      obtain ⟨hn, ⟨-, hdir⟩ | ⟨hoff, -⟩⟩ := mapPermits_register hlo hhi hmap
      · cases hdir
      · exact hne ⟨hoff, hn⟩

end Sys2Proof.Machine
end

