-- ==== Sys2Proof/Proofs/Encoding.lean ====
section
/-! PROOFS. The statement about the encoding (30_encoding.md): the illegal words (R63). -/

namespace Sys2Proof

theorem decodeNoArg_error_iff (i : Instr) (arg : Nat) : (∃ e, decodeNoArg i arg = .error e) ↔ arg ≠ 0 := by
  rw [decodeNoArg]
  split <;> simp [*]

/-- With both reserved fields 0, a word is illegal by a reserved OP or by an operand where none is taken (R63 (a),
(d)). -/
theorem decodeOp_error_iff (op arg : Nat) :
    (∃ e, decodeOp op arg = .error e) ↔
      (op = 0 ∨ 7 ≤ op) ∨ ((op = 3 ∨ op = 5 ∨ op = 6) ∧ arg ≠ 0) := by
  match op with
  | 1 | 2 | 4 => simp [decodeOp]
  | 3 | 5 | 6 => simpa [decodeOp] using decodeNoArg_error_iff _ arg
  | 0 | _ + 7 => simp [decodeOp]

/-- The illegal words by their fields (R63). -/
theorem decode_error_iff (w : CmdWord) :
    (∃ e, decode w = .error e) ↔
      (opField w = 0 ∨ 7 ≤ opField w) ∨ rsv0Field w ≠ 0 ∨ rsv1Field w ≠ 0 ∨
      ((opField w = 3 ∨ opField w = 5 ∨ opField w = 6) ∧ argField w ≠ 0) := by
  by_cases hr : rsv0Field w ≠ 0 ∨ rsv1Field w ≠ 0
  · exact iff_of_true (decode_reserved hr) (.inr (hr.imp_right .inl))
  · obtain ⟨h0, h1⟩ : rsv0Field w = 0 ∧ rsv1Field w = 0 := by simpa using hr
    rw [decode_fields h0 h1, decodeOp_error_iff]
    simp [h0, h1]

/-- Settles O12: `decode_error_iff` with the fields as numbers, and `issue_illegal`. -/
theorem illegalWordsAreThoseOfTheRule : Obligations.IllegalWordsAreThoseOfTheRule := by
  unfold Obligations.IllegalWordsAreThoseOfTheRule
  intro w
  refine ⟨?_, fun _ _ => Machine.issue_illegal⟩
  rw [← opField_eq, ← rsv0Field_eq, ← rsv1Field_eq, ← argField_eq]
  exact decode_error_iff w

end Sys2Proof
end

