-- ==== Sys2Proof/Proofs/Sponge.lean ====
section
/-! PROOFS. The statements about the six commands (40_sponge_commands.md R81 to R87): the word of each, its
rejections, its effect and its frame. -/

namespace Sys2Proof

/-! ### The word of a command -/

theorem Instr.arg_lt {i : Instr} (h : i.WellFormed) : i.arg < 256 := by
  cases i with
  | init | absorb | extract => exact of_decide_eq_true h
  | permute | wipe | clrerr => exact Nat.zero_lt_succ _

theorem Instr.opcode_lt (i : Instr) : i.opcode < 16 := by
  cases i <;> simp [Instr.opcode]

/-- A word decodes to the command whose OP and ARG it carries, if both reserved fields are 0 (R66). -/
theorem decode_of_fields {w : CmdWord} {i : Instr} (h0 : rsv0Field w = 0) (h1 : rsv1Field w = 0)
    (hop : opField w = i.opcode) (harg : argField w = i.arg) : decode w = .ok i := by
  rw [decode_fields h0 h1, hop, harg]
  cases i <;> rfl

/-- The word `(arg << 8) | OP` of a command decodes to it (R60, R66). -/
theorem decode_word {i : Instr} (h : i.WellFormed) :
    decode (BitVec.ofNat 32 (i.arg * 256 + i.opcode)) = .ok i := by
  have harg := i.arg_lt h
  have hop := i.opcode_lt
  have hw : (BitVec.ofNat 32 (i.arg * 256 + i.opcode)).toNat = i.arg * 256 + i.opcode :=
    (BitVec.toNat_ofNat ..).trans (Nat.mod_eq_of_lt (by omega))
  apply decode_of_fields
  · rw [rsv0Field_eq, hw]; omega
  · rw [rsv1Field_eq, hw]; omega
  · rw [opField_eq, hw]; omega
  · rw [argField_eq, hw]; omega

end Sys2Proof

namespace Sys2Proof.Machine

theorem issue_word {i : Instr} (h : i.WellFormed) (s : State) :
    issue (BitVec.ofNat 32 (i.arg * 256 + i.opcode)) s = exec i s :=
  issue_ok (decode_word h)

/-! ### Rejections of words -/

/-- An idle engine rejects a word with a reserved field that is not 0 with code 1 (R63 (b), (c)). -/
theorem issue_reserved {w : CmdWord} {s : State} (hb : s.busy = false) (h : rsv0Field w ≠ 0 ∨ rsv1Field w ≠ 0) :
    ∃ t, issue w s = .next t ∧ Rejected 1 s t := by
  obtain ⟨e, hd⟩ := decode_reserved h
  exact issue_illegal hd hb

/-- An idle engine rejects a word of PERMUTE, WIPE or CLRERR with an ARG or a reserved field that is not 0 with code 1
(R63 (b) to (d)). -/
theorem issue_noArg_illegal {w : CmdWord} {s : State} (hb : s.busy = false)
    (hop : opField w = 3 ∨ opField w = 5 ∨ opField w = 6)
    (h : argField w ≠ 0 ∨ rsv0Field w ≠ 0 ∨ rsv1Field w ≠ 0) :
    ∃ t, issue w s = .next t ∧ Rejected 1 s t := by
  rcases h with harg | hrsv
  · obtain ⟨e, hd⟩ := (decode_error_iff w).2 (.inr (.inr (.inr ⟨hop, harg⟩)))
    exact issue_illegal hd hb
  · exact issue_reserved hb hrsv

/-! ### INIT -/

/-- A permutation of no rounds is the identity (R110). -/
theorem keccakP_zero (A : Lanes) : keccakP 0 A = A := rfl

theorem operandError_init_eq_some {nr : Nat} (h : 24 < nr) : operandError (.init nr) = some .badRounds :=
  if_neg (Nat.not_le.2 h)

theorem initEffect_rounds_toNat {nr : Nat} (h : nr ≤ 24) (s : State) : (initEffect nr s).rounds.toNat = nr :=
  (BitVec.toNat_ofNat ..).trans (Nat.mod_eq_of_lt (by omega))

/-- Settles O1: the effect's fields are read off, ROUNDS by `initEffect_rounds_toNat` and STATUS by `status_toNat`. -/
theorem initZeroesLanesAndLoadsRounds : Obligations.InitZeroesLanesAndLoadsRounds := by
  unfold Obligations.InitZeroesLanesAndLoadsRounds
  intro nr s
  refine ⟨fun h => issue_word (i := .init nr) (decide_eq_true h) s, exec_busy,
    fun hb h => exec_bad hb (operandError_init_eq_some h), ?accepted, fun hb w _ => issue_reserved hb⟩
  intro hb h
  have hr := initEffect_rounds_toNat h s
  refine ⟨initEffect nr s, exec_ok hb (if_pos h), fun i _ => laneOf_zeroLanes i, hr, rfl, rfl, rfl, hb, rfl, rfl,
    ⟨rfl, rfl, rfl, rfl, rfl⟩, ?status, ?identity⟩
  case status =>
    intro he hc
    rw [status_toNat, hr]
    simp [initEffect, hb, he, hc, Nat.mul_comm]
  case identity =>
    intro h0 A
    rw [hr, h0, keccakP_zero]

/-! ### ABSORB -/

theorem operandError_absorb_eq_some {len : Nat} (h : len % 8 ≠ 0 ∨ 200 < len) :
    operandError (.absorb len) = some .badAbsorbLen :=
  if_neg (by omega)

/-- Bit `j` of lane `i` after a block of whole lanes has been absorbed (R82). -/
theorem getLsbD_absorbBlock {len i j : Nat} (hlen : len % 8 = 0) (hi : i < 25) (hj : j < 64) (m : Memory)
    (A : Lanes) :
    (laneOf (absorbBlock len m A) i).getLsbD j =
      ((laneOf A i).getLsbD j ^^
        (decide (8 * i + j / 8 < len) && (m.read (8 * i + j / 8)).getLsbD (j % 8))) := by
  have hblock : i < len / 8 ↔ 8 * i + j / 8 < len := by omega
  rw [absorbBlock, laneOf_lanesOf_lt hi]
  split
  · next h =>
    rw [BitVec.getLsbD_xor, getLsbD_laneIn, decide_eq_true hj, decide_eq_true (hblock.1 h)]
  · next h => rw [decide_eq_false (mt hblock.2 h), Bool.false_and, Bool.xor_false]

theorem absorbEffect_lanes (len : Nat) (s : State) :
    (absorbEffect len s).lanes = absorbBlock len s.inBuf s.lanes := rfl

/-- Settles O2: the lanes are `getLsbD_absorbBlock`, the other fields are read off. -/
theorem absorbXorsBlockAndIssuesPermutation : Obligations.AbsorbXorsBlockAndIssuesPermutation := by
  unfold Obligations.AbsorbXorsBlockAndIssuesPermutation
  intro len s
  refine ⟨fun h => issue_word (i := .absorb len) (decide_eq_true h) s, exec_busy,
    fun hb h => exec_bad hb (operandError_absorb_eq_some h), ?accepted, fun hb w _ => issue_reserved hb⟩
  intro hb hmod hle
  refine ⟨absorbEffect len s, exec_ok hb (absorbError_eq_none.2 ⟨hmod, hle⟩), ?lanes, ?frame⟩
  case lanes =>
    intro i hi j hj
    rw [State.lane, absorbEffect_lanes]
    exact getLsbD_absorbBlock hmod hi hj s.inBuf s.lanes
  case frame => simp [absorbEffect]

/-! ### PERMUTE -/

/-- Settles O3: the issue changes PENDING and BUSY alone, and its completion is `complete_next`. -/
theorem permuteIssuesOnePermutation : Obligations.PermuteIssuesOnePermutation := by
  unfold Obligations.PermuteIssuesOnePermutation
  intro s
  refine ⟨issue_word (i := .permute) rfl s, exec_busy, ?accepted,
    fun hb w hop => issue_noArg_illegal hb (.inl hop)⟩
  intro hb
  have hidentity : s.rounds = 0 → keccakP s.rounds.toNat s.lanes = s.lanes := by
    intro h0
    rw [h0]
    exact keccakP_zero s.lanes
  exact ⟨permuteEffect s, exec_ok hb rfl, rfl, rfl, rfl, rfl, rfl, rfl, rfl, rfl, rfl, rfl,
    fun hr => ⟨_, complete_next hr, rfl, rfl, hidentity⟩⟩

/-! ### EXTRACT -/

theorem operandError_extract_eq_some {len : Nat} (h : 200 < len) : operandError (.extract len) = some .badExtractLen :=
  if_neg (Nat.not_le.2 h)

/-- OUT_BUF after EXTRACT: the serialisation below `len`, the old bytes from there on (R85). -/
theorem extractEffect_outByte {len : Nat} {s : State} (hlen : len ≤ 200) (hwf : s.outBuf.wf = true) (k : Nat) :
    (extractEffect len s).outByte k = if k < len then serByte s.lanes k else s.outByte k := by
  change (s.outBuf.writeBytes 0 (serialise s.lanes len)).read k = _
  rw [Memory.read_writeBytes hwf (by simpa [bufBytes] using hlen), length_serialise]
  by_cases hk : k < len
  · rw [if_pos (by omega), if_pos hk, Nat.sub_zero, getD_serialise _ hk]
  · rw [if_neg (by omega), if_neg hk]; rfl

theorem extractEffect_zero (s : State) : extractEffect 0 s = s := rfl

/-- Settles O4: the bytes of OUT_BUF are `extractEffect_outByte`, the other fields are read off. -/
theorem extractCopiesSerialisation : Obligations.ExtractCopiesSerialisation := by
  unfold Obligations.ExtractCopiesSerialisation
  intro len s
  refine ⟨fun h => issue_word (i := .extract len) (decide_eq_true h) s, exec_busy,
    fun hb h => exec_bad hb (operandError_extract_eq_some h), ?accepted, fun hb w _ => issue_reserved hb⟩
  intro hb hlen
  refine ⟨extractEffect len s, exec_ok hb (if_pos hlen), fun hwf => ⟨?copied, ?kept⟩,
    fun h0 => h0 ▸ extractEffect_zero s, rfl, rfl, rfl, rfl, hb, rfl, rfl, ⟨rfl, rfl, rfl, rfl, rfl⟩⟩
  case copied =>
    intro k hk j hj
    rw [extractEffect_outByte hlen hwf, if_pos hk, getLsbD_serByte, decide_eq_true hj, Bool.true_and]
    rfl
  case kept =>
    intro k hk
    rw [extractEffect_outByte hlen hwf, if_neg (by omega)]

/-! ### WIPE -/

/-- Settles O5: the effect's fields are read off, and the whole state is `wipeEffect_eq_reset`. -/
theorem wipeRestoresTheResetState : Obligations.WipeRestoresTheResetState := by
  unfold Obligations.WipeRestoresTheResetState
  intro s
  refine ⟨issue_word (i := .wipe) rfl s, exec_busy, ?accepted,
    fun hb w hop => issue_noArg_illegal hb (.inr (.inl hop))⟩
  intro hb
  refine ⟨wipeEffect s, exec_ok hb rfl, fun i _ => laneOf_zeroLanes i, fun _ => rfl, fun _ => rfl, rfl, rfl, rfl,
    hb, rfl, ?status, ⟨rfl, rfl, rfl, rfl, rfl⟩, wipeEffect_eq_reset hb⟩
  rw [status_toNat]
  simp [wipeEffect, hb]

/-! ### CLRERR -/

theorem clrerrEffect_of_no_error {s : State} (he : s.err = false) (hc : s.errCode = 0) : clrerrEffect s = s := by
  rw [clrerrEffect, ← he, ← hc]; rfl

/-- Settles O6: the effect's fields are read off; with no error recorded it is `clrerrEffect_of_no_error`. -/
theorem clrerrClearsTheErrorRecord : Obligations.ClrerrClearsTheErrorRecord := by
  unfold Obligations.ClrerrClearsTheErrorRecord
  intro s
  refine ⟨issue_word (i := .clrerr) rfl s, ?busy, ?accepted,
    fun hb w hop => issue_noArg_illegal hb (.inr (.inr hop))⟩
  case busy =>
    intro hb
    obtain ⟨t, ht, hrej⟩ := exec_busy (i := .clrerr) hb
    refine ⟨t, ht, hrej, fun he => ?_⟩
    obtain ⟨-, herr, hcode⟩ := hrej
    exact ⟨herr, by simpa [he] using hcode⟩
  case accepted =>
    intro hb
    exact ⟨clrerrEffect s, exec_ok hb rfl, rfl, rfl, rfl, rfl, rfl, rfl, rfl, hb, ⟨rfl, rfl, rfl, rfl, rfl⟩,
      clrerrEffect_of_no_error⟩

end Sys2Proof.Machine
end

