-- ==== Sys2Proof/Proofs/ChiIotaRounds.lean ====
section
/-! PROOFS. The statements about χ (R116), ι with its round constants (R117, R118) and the order of the rounds
(R110, R111) of 41_permutation.md. -/

namespace Sys2Proof.Machine

/-! ### Lanes at (x, y) -/

/-- The indices of a lane count mod 5 (R10). -/
theorem laneAt_congr (A : Lanes) {x x' y y' : Nat} (hx : x % 5 = x' % 5) (hy : y % 5 = y' % 5) :
    laneAt A x y = laneAt A x' y' := by
  rw [laneAt, laneAt, hx, hy]

theorem laneAt_lanesOf (f : Nat → Lane) (x y : Nat) : laneAt (lanesOf f) x y = f (x % 5 + 5 * (y % 5)) :=
  laneOf_lanesOf_lt (by omega)

theorem laneOf_eq_laneAt (A : Lanes) {i : Nat} (h : i < 25) : laneOf A i = laneAt A i (i / 5) := by
  rw [laneAt, show i % 5 + 5 * (i / 5 % 5) = i by omega]

/-- Lane states that agree at every (x, y) are equal. -/
theorem lanes_ext_laneAt {A B : Lanes} (h : ∀ x y, laneAt A x y = laneAt B x y) : A = B :=
  lanes_ext fun i hi => by rw [laneOf_eq_laneAt A hi, laneOf_eq_laneAt B hi, h]

theorem zeroLanes_eq_lanesOf : zeroLanes = lanesOf fun _ => 0 :=
  lanes_ext fun i hi => by rw [laneOf_zeroLanes, laneOf_lanesOf_lt hi]

/-! ### χ -/

/-- χ at (x, y), all indices mod 5 (R116). -/
theorem laneAt_chi (A : Lanes) (x y : Nat) :
    laneAt (chi A) x y = laneAt A x y ^^^ (~~~laneAt A (x + 1) y &&& laneAt A (x + 2) y) := by
  have hx : (x % 5 + 5 * (y % 5)) % 5 = x % 5 := by omega
  have hy : (x % 5 + 5 * (y % 5)) / 5 = y % 5 := by omega
  rw [laneAt, laneOf_chi A (by omega), hx, hy]
  simp [laneAt]

/-- χ fixes a state whose lanes are all equal: a bit AND its own negation is 0. -/
theorem chi_lanesOf_const (c : Lane) : chi (lanesOf fun _ => c) = lanesOf fun _ => c :=
  lanes_ext_laneAt fun x y => by simp [laneAt_chi, laneAt_lanesOf]

/-- The inverse of χ on one row, at the lane `b0`; `b1` to `b4` follow it in the row. -/
def chiRowInverse (b0 b1 b2 b3 b4 : Lane) : Lane := b0 ^^^ (~~~b1 &&& (b2 ^^^ (~~~b3 &&& b4)))

/-- The five lanes of χ's row give back the first lane of the row: at each bit position, one check of the 32 rows. -/
theorem chiRowInverse_chi (a0 a1 a2 a3 a4 : Lane) :
    chiRowInverse (a0 ^^^ (~~~a1 &&& a2)) (a1 ^^^ (~~~a2 &&& a3)) (a2 ^^^ (~~~a3 &&& a4))
      (a3 ^^^ (~~~a4 &&& a0)) (a4 ^^^ (~~~a0 &&& a1)) = a0 := by
  have hbits : ∀ p q r s t : Bool,
      ((p ^^ (!q && r)) ^^ (!(q ^^ (!r && s)) &&
        ((r ^^ (!s && t)) ^^ (!(s ^^ (!t && p)) && (t ^^ (!p && q)))))) = p := by decide
  apply BitVec.eq_of_getLsbD_eq
  intro z hz
  simpa [chiRowInverse, hz] using
    hbits (a0.getLsbD z) (a1.getLsbD z) (a2.getLsbD z) (a3.getLsbD z) (a4.getLsbD z)

/-- χ is invertible on each row: the row of the image determines the row of the input. -/
theorem laneAt_eq_chiRowInverse (A : Lanes) (x y : Nat) :
    laneAt A x y = chiRowInverse (laneAt (chi A) x y) (laneAt (chi A) (x + 1) y) (laneAt (chi A) (x + 2) y)
      (laneAt (chi A) (x + 3) y) (laneAt (chi A) (x + 4) y) := by
  have h5 : laneAt A (x + 5) y = laneAt A x y := laneAt_congr A (by omega) rfl
  have h6 : laneAt A (x + 6) y = laneAt A (x + 1) y := laneAt_congr A (by omega) rfl
  simp only [laneAt_chi, Nat.add_assoc, Nat.reduceAdd, h5, h6]
  exact (chiRowInverse_chi ..).symm

theorem chi_row_injective {A B : Lanes} {y : Nat} (h : ∀ x, laneAt (chi A) x y = laneAt (chi B) x y) (x : Nat) :
    laneAt A x y = laneAt B x y := by
  rw [laneAt_eq_chiRowInverse A, laneAt_eq_chiRowInverse B, h, h, h, h, h]

theorem chi_bijective : Function.Bijective chi :=
  lanes_bijective fun _ _ h => lanes_ext_laneAt fun x _ => chi_row_injective (fun _ => by rw [h]) x

/-- Settles O36: `laneAt_chi` bit by bit, `chi_lanesOf_const`, and the inverse of a row `chi_row_injective`. -/
theorem chiBits : Obligations.ChiBits := by
  unfold Obligations.ChiBits
  refine ⟨?bits, ?zero, chi_lanesOf_const _, chi_bijective, ?rows⟩
  case bits =>
    intro A x y z hx hy hz
    have hrow : ∀ k, laneAt A k y = laneOf A (k % 5 + 5 * y) := fun k => by rw [laneAt, Nat.mod_eq_of_lt hy]
    rw [← laneAt_eq hx hy, ← laneAt_eq hx hy, laneAt_chi, hrow (x + 1), hrow (x + 2)]
    simp [hz]
  case zero =>
    rw [zeroLanes_eq_lanesOf]
    exact chi_lanesOf_const 0
  case rows =>
    intro A B y hy h x hx
    rw [← laneAt_eq hx hy, ← laneAt_eq hx hy]
    refine chi_row_injective (fun k => ?_) x
    rw [laneAt, laneAt, Nat.mod_eq_of_lt hy]
    exact h (k % 5) (Nat.mod_lt _ (by decide))

/-! ### ι -/

theorem laneOf_iota_zero (A : Lanes) (ir : Nat) : laneOf (iota A ir) 0 = laneOf A 0 ^^^ roundConstant ir :=
  laneOf_iota A ir (by decide)

theorem laneOf_iota_of_ne (A : Lanes) (ir : Nat) {i : Nat} (h : i < 25) (h0 : i ≠ 0) :
    laneOf (iota A ir) i = laneOf A i := by
  rw [laneOf_iota A ir h, if_neg h0]

/-- The round constants as R118 computes them: bit 2^j - 1 of RC[ir] is rc(j + 7 ir). -/
theorem getLsbD_roundConstant_eq_rcBit : ∀ ir < 24, ∀ j < 7,
    (roundConstant ir).getLsbD (2 ^ j - 1) = rcBit (j + 7 * ir) := by decide +kernel

theorem getLsbD_roundConstant_eq_false : ∀ ir < 24, ∀ z < 64, (∀ j < 7, z ≠ 2 ^ j - 1) →
    (roundConstant ir).getLsbD z = false := by decide +kernel

/-- Settles O37: the lanes are `laneOf_iota`, the table is run row by row, and the bits of the constants are
`getLsbD_roundConstant_eq_rcBit` and `getLsbD_roundConstant_eq_false`. -/
theorem iotaAddsTheRoundConstant : Obligations.IotaAddsTheRoundConstant := by
  unfold Obligations.IotaAddsTheRoundConstant
  intro A ir hir
  refine ⟨fun i hi h0 => laneOf_iota_of_ne A ir hi h0, ⟨roundConstant ir, ?table, laneOf_iota_zero A ir⟩,
    ?lfsr, ?others⟩
  case table => interval_cases ir <;> rfl
  case lfsr =>
    intro j hj
    rw [laneOf_iota_zero, BitVec.getLsbD_xor, getLsbD_roundConstant_eq_rcBit ir hir j hj]
  case others =>
    intro z hz h
    rw [laneOf_iota_zero, BitVec.getLsbD_xor, getLsbD_roundConstant_eq_false ir hir z hz h, Bool.xor_false]

/-! ### The rounds -/

/-- The whole permutation is the rounds before 24 - nr and then KeccakP(nr) (R119). -/
theorem keccakP_24 {nr : Nat} (h : nr ≤ 24) (A : Lanes) :
    keccakP 24 A = keccakP nr (keccakRounds (24 - nr) 0 A) := by
  have hsplit := keccakRounds_add (24 - nr) nr 0 A
  rwa [Nat.sub_add_cancel h, Nat.zero_add] at hsplit

/-- Settles O38: the rounds as a fold are `keccakRounds_eq_foldl`, the last rounds are `keccakP_24`. -/
theorem keccakPRunsTheLastRounds : Obligations.KeccakPRunsTheLastRounds := by
  unfold Obligations.KeccakPRunsTheLastRounds
  intro nr A hnr
  refine ⟨keccakRounds_eq_foldl nr (24 - nr) A, keccakP_zero A, ?_⟩
  rw [keccakP_24 hnr, keccakRounds_eq_foldl]
  simp

end Sys2Proof.Machine
end

