-- ==== Sys2Proof/Proofs/Bijection.lean ====
section
/-! PROOFS. The statement that every step of the round, and so every KeccakP(nr, ·), is a bijection (R121). Each step
is shown to be injective; the lane states are finitely many. -/

namespace Sys2Proof.Machine

/-! ### θ on the column parities

θ adds to each lane a mask of the column parities, so it is enough that the parities of the image determine those of
the input. On the parities, polynomials over GF(2) in X (one step in x) and Z (one step in z) with X^5 = 1 and
Z^64 = 1, θ is the multiplication by P = 1 + X + X^4 Z. Squaring gives P^(2^n) = 1 + X^(2^n) + X^(4 * 2^n) Z^(2^n):
P^64 and P^128 have no Z left, and their product P^192 is 1. -/

theorem columnParity_congr (A : Lanes) {x x' : Nat} (h : x % 5 = x' % 5) :
    columnParity A x = columnParity A x' := by
  simp only [columnParity, laneAt_congr A h rfl]

theorem thetaMask_congr (A : Lanes) {x x' : Nat} (h : x % 5 = x' % 5) : thetaMask A x = thetaMask A x' := by
  rw [thetaMask, thetaMask, columnParity_congr A (show (x + 4) % 5 = (x' + 4) % 5 by omega),
    columnParity_congr A (show (x + 1) % 5 = (x' + 1) % 5 by omega)]

/-- θ at (x, y), all indices mod 5 (R112). -/
theorem laneAt_theta (A : Lanes) (x y : Nat) : laneAt (theta A) x y = laneAt A x y ^^^ thetaMask A x := by
  rw [laneAt, laneOf_theta A (by omega), thetaMask_congr A (x' := x) (by omega), laneAt]

/-- A column has five lanes, an odd number: θ adds the mask of the column to its parity. -/
theorem columnParity_theta (A : Lanes) (x : Nat) :
    columnParity (theta A) x = columnParity A x ^^^ thetaMask A x := by
  apply BitVec.eq_of_getLsbD_eq
  intro z _
  simp only [columnParity, laneAt_theta, BitVec.getLsbD_xor]
  simp [Bool.xor_left_comm, Bool.xor_comm]

/-- The parity of the column at x and bit z, indices mod 5 and mod 64. -/
def columnBit (A : Lanes) (x z : Nat) : Bool := (columnParity A x).getLsbD (z % 64)

/-- A plane of bits `c x z` whose indices count mod 5 and mod 64. -/
def PlanePeriodic (c : Nat → Nat → Bool) : Prop :=
  ∀ ⦃x x' z z' : Nat⦄, x % 5 = x' % 5 → z % 64 = z' % 64 → c x z = c x' z'

theorem columnBit_periodic (A : Lanes) : PlanePeriodic (columnBit A) := by
  intro x x' z z' hx hz
  rw [columnBit, columnBit, columnParity_congr A hx, hz]

/-- The multiplication of a plane by 1 + X^k + X^(4k) Z^k, which for `k = 1` is θ on the column parities. -/
def thetaPlane (k : Nat) (c : Nat → Nat → Bool) (x z : Nat) : Bool :=
  c x z ^^ c (x + 4 * k) z ^^ c (x + k) (z + 63 * k)

theorem getLsbD_thetaMask (A : Lanes) (x z : Nat) :
    (thetaMask A x).getLsbD (z % 64) = (columnBit A (x + 4) z ^^ columnBit A (x + 1) (z + 63)) := by
  rw [thetaMask, BitVec.getLsbD_xor, getLsbD_rotl64 _ (by decide) (Nat.mod_lt _ (by decide)), columnBit, columnBit,
    Nat.mod_add_mod]

theorem columnBit_theta (A : Lanes) : columnBit (theta A) = thetaPlane 1 (columnBit A) := by
  funext x z
  rw [columnBit, columnParity_theta, BitVec.getLsbD_xor, getLsbD_thetaMask, thetaPlane, Bool.xor_assoc]
  rfl

/-- Squaring over GF(2): the mixed terms come in pairs and cancel. -/
theorem thetaPlane_thetaPlane (k : Nat) (c : Nat → Nat → Bool) :
    thetaPlane k (thetaPlane k c) = thetaPlane (2 * k) c := by
  funext x z
  have hmixed : x + 4 * k + k = x + k + 4 * k := by omega
  have hx4 : x + 4 * k + 4 * k = x + 4 * (2 * k) := by omega
  have hx1 : x + k + k = x + 2 * k := by omega
  have hz : z + 63 * k + 63 * k = z + 63 * (2 * k) := by omega
  simp only [thetaPlane, hmixed, hx4, hx1, hz]
  simp [Bool.xor_left_comm, Bool.xor_comm]

theorem thetaPlane_periodic {c : Nat → Nat → Bool} (h : PlanePeriodic c) (k : Nat) :
    PlanePeriodic (thetaPlane k c) := by
  intro x x' z z' hx hz
  have h1 : c x z = c x' z' := h hx hz
  have h2 : c (x + 4 * k) z = c (x' + 4 * k) z' := h (by omega) hz
  have h3 : c (x + k) (z + 63 * k) = c (x' + k) (z' + 63 * k) := h (by omega) (by omega)
  rw [thetaPlane, thetaPlane, h1, h2, h3]

theorem thetaPlane_64 {c : Nat → Nat → Bool} (h : PlanePeriodic c) (x z : Nat) :
    thetaPlane 64 c x z = (c x z ^^ c (x + 1) z ^^ c (x + 4) z) := by
  have h1 : c (x + 4 * 64) z = c (x + 1) z := h (by omega) rfl
  have h4 : c (x + 64) (z + 63 * 64) = c (x + 4) z := h (by omega) (by omega)
  rw [thetaPlane, h1, h4]

theorem thetaPlane_128 {c : Nat → Nat → Bool} (h : PlanePeriodic c) (x z : Nat) :
    thetaPlane 128 c x z = (c x z ^^ c (x + 2) z ^^ c (x + 3) z) := by
  have h2 : c (x + 4 * 128) z = c (x + 2) z := h (by omega) rfl
  have h3 : c (x + 128) (z + 63 * 128) = c (x + 3) z := h (by omega) (by omega)
  rw [thetaPlane, h2, h3]

/-- P^64 and P^128 are inverse to each other. -/
theorem thetaPlane_64_thetaPlane_128 {c : Nat → Nat → Bool} (h : PlanePeriodic c) :
    thetaPlane 64 (thetaPlane 128 c) = c := by
  funext x z
  have h6 : c (x + 6) z = c (x + 1) z := h (by omega) rfl
  have h7 : c (x + 7) z = c (x + 2) z := h (by omega) rfl
  simp only [thetaPlane_64 (thetaPlane_periodic h 128), thetaPlane_128 h, Nat.add_assoc, Nat.reduceAdd, h6, h7]
  simp [Bool.xor_left_comm, Bool.xor_comm]

theorem thetaPlane_one_injective {c d : Nat → Nat → Bool} (hc : PlanePeriodic c) (hd : PlanePeriodic d)
    (h : thetaPlane 1 c = thetaPlane 1 d) : c = d := by
  have hpow : ∀ n, thetaPlane (2 ^ n) c = thetaPlane (2 ^ n) d := by
    intro n
    induction n with
    | zero => exact h
    | succ n ih => rw [Nat.pow_succ', ← thetaPlane_thetaPlane, ← thetaPlane_thetaPlane, ih]
  calc c = thetaPlane 64 (thetaPlane 128 c) := (thetaPlane_64_thetaPlane_128 hc).symm
    _ = thetaPlane 64 (thetaPlane 128 d) := congrArg (thetaPlane 64) (hpow 7)
    _ = d := thetaPlane_64_thetaPlane_128 hd

theorem columnParity_eq_of_columnBit_eq {A B : Lanes} (h : columnBit A = columnBit B) :
    columnParity A = columnParity B := by
  funext x
  apply BitVec.eq_of_getLsbD_eq
  intro z hz
  simpa [columnBit, Nat.mod_eq_of_lt hz] using congrFun₂ h x z

theorem theta_injective : Function.Injective theta := by
  intro A B h
  have hplane : thetaPlane 1 (columnBit A) = thetaPlane 1 (columnBit B) := by
    rw [← columnBit_theta, ← columnBit_theta, h]
  have hparity : columnParity A = columnParity B := columnParity_eq_of_columnBit_eq
    (thetaPlane_one_injective (columnBit_periodic A) (columnBit_periodic B) hplane)
  apply lanes_ext_laneAt
  intro x y
  have hmask : thetaMask A x = thetaMask B x := by rw [thetaMask, thetaMask, hparity]
  have hlane : laneAt (theta A) x y = laneAt (theta B) x y := by rw [h]
  rw [laneAt_theta, laneAt_theta, hmask] at hlane
  exact (BitVec.xor_left_inj _).1 hlane

/-! ### ρ -/

theorem rhoOffset_lt : ∀ i < 25, rhoOffset i < 64 := by decide

theorem rotl64_injective {r : Nat} (hr : r < 64) {v w : Lane} (h : rotl64 v r = rotl64 w r) : v = w := by
  apply BitVec.eq_of_getLsbD_eq
  intro z hz
  have hlt : (z + r) % 64 < 64 := Nat.mod_lt _ (by decide)
  have hback : ((z + r) % 64 + (64 - r)) % 64 = z := by omega
  rw [← hback, ← getLsbD_rotl64 v hr hlt, ← getLsbD_rotl64 w hr hlt, h]

theorem rho_injective : Function.Injective rho := by
  intro A B h
  apply lanes_ext
  intro i hi
  apply rotl64_injective (rhoOffset_lt i hi)
  rw [← laneOf_rho A hi, ← laneOf_rho B hi, h]

/-! ### π -/

theorem laneAt_piStep (A : Lanes) (x y : Nat) : laneAt (piStep A) x y = laneAt A (x + 3 * y) x := by
  rw [laneAt, laneOf_piStep A (by omega)]
  exact laneAt_congr A (by omega) (by omega)

/-- π moves the lane at (x, y) to (y, 2x + 3y), indices mod 5 (R115). -/
theorem laneAt_eq_laneAt_piStep (A : Lanes) (x y : Nat) : laneAt A x y = laneAt (piStep A) y (2 * x + 3 * y) := by
  rw [laneAt_piStep]
  exact laneAt_congr A (by omega) rfl

theorem piStep_injective : Function.Injective piStep := fun A B h =>
  lanes_ext_laneAt fun x y => by rw [laneAt_eq_laneAt_piStep A, laneAt_eq_laneAt_piStep B, h]

/-! ### ι and the rounds -/

theorem iota_involutive (ir : Nat) : Function.Involutive fun A => iota A ir := by
  intro A
  apply lanes_ext
  intro i hi
  by_cases h0 : i = 0
  · rw [h0, laneOf_iota_zero, laneOf_iota_zero, BitVec.xor_assoc, BitVec.xor_self, BitVec.xor_zero]
  · rw [laneOf_iota_of_ne _ ir hi h0, laneOf_iota_of_ne _ ir hi h0]

theorem keccakRound_injective (ir : Nat) : Function.Injective fun A => keccakRound A ir :=
  (iota_involutive ir).injective.comp <| chi_bijective.injective.comp <| piStep_injective.comp <|
    rho_injective.comp theta_injective

theorem keccakRounds_injective (n ir : Nat) : Function.Injective (keccakRounds n ir) := by
  induction n generalizing ir with
  | zero => exact Function.injective_id
  | succ n ih => exact (ih (ir + 1)).comp (keccakRound_injective ir)

/-- Settles O40: each step is injective, and so are the rounds in a row, `keccakRounds_injective`. -/
theorem keccakPIsABijection : Obligations.KeccakPIsABijection := by
  unfold Obligations.KeccakPIsABijection
  exact ⟨lanes_bijective theta_injective, lanes_bijective rho_injective, lanes_bijective piStep_injective,
    chi_bijective, fun ir _ => (iota_involutive ir).bijective,
    fun nr _ => lanes_bijective (keccakRounds_injective nr (24 - nr))⟩

end Sys2Proof.Machine
end

