-- ==== Sys2Proof/Proofs/Exceptions.lean ====
section
/-! PROOFS. The statement about the priority of the error codes of a CMD write (60_exceptions.md R143). -/

namespace Sys2Proof.Machine

/-- The illegal words of R63 in the order in which R143 lists their causes. -/
theorem priority_illegal_iff (w : CmdWord) :
    (rsv0Field w ≠ 0 ∨ rsv1Field w ≠ 0 ∨ opField w = 0 ∨ 7 ≤ opField w) ∨
      ((opField w = 3 ∨ opField w = 5 ∨ opField w = 6) ∧ argField w ≠ 0) ↔ ∃ e, decode w = .error e := by
  rw [decode_error_iff]
  tauto

/-- An accepted command leaves the error record or clears it (R143). -/
theorem exec_accepted_errorRecord {i : Instr} {s : State} (hb : s.busy = false) (he : operandError i = none) :
    ∃ t, exec i s = .next t ∧
      ((t.err = s.err ∧ t.errCode = s.errCode) ∨ (t.err = false ∧ t.errCode = 0)) := by
  refine ⟨commandEffect i s, exec_ok hb he, ?_⟩
  cases i with
  | wipe | clrerr => exact .inr ⟨rfl, rfl⟩
  | init | absorb | permute | extract => exact .inl (commandEffect_errorRecord (by simp) (by simp) s)

/-- An idle engine's answer to a decoded command: the operand causes in R143's order, and otherwise no new error. -/
theorem exec_operandPriority (i : Instr) {s : State} (hb : s.busy = false) :
    ∃ t, exec i s = .next t ∧
      if i.opcode = 1 ∧ 24 < i.arg then Rejected 2 s t
      else if i.opcode = 2 ∧ (i.arg % 8 ≠ 0 ∨ 200 < i.arg) then Rejected 3 s t
      else if i.opcode = 4 ∧ 200 < i.arg then Rejected 4 s t
      else (t.err = s.err ∧ t.errCode = s.errCode) ∨ (t.err = false ∧ t.errCode = 0) := by
  cases i with
  | init nr =>
    by_cases h : 24 < nr
    · simpa [Instr.opcode, Instr.arg, h, errorCode] using exec_bad hb (operandError_init_eq_some h)
    · simpa [Instr.opcode, Instr.arg, h] using
        exec_accepted_errorRecord (i := .init nr) hb (if_pos (Nat.not_lt.1 h))
  | absorb len =>
    by_cases h : len % 8 ≠ 0 ∨ 200 < len
    · simpa [Instr.opcode, Instr.arg, h, errorCode] using exec_bad hb (operandError_absorb_eq_some h)
    · simpa [Instr.opcode, Instr.arg, h] using
        exec_accepted_errorRecord (i := .absorb len) hb (absorbError_eq_none.2 (by omega))
  | extract len =>
    by_cases h : 200 < len
    · simpa [Instr.opcode, Instr.arg, h, errorCode] using exec_bad hb (operandError_extract_eq_some h)
    · simpa [Instr.opcode, Instr.arg, h] using
        exec_accepted_errorRecord (i := .extract len) hb (if_pos (Nat.not_lt.1 h))
  | permute | wipe | clrerr => simpa [Instr.opcode] using exec_accepted_errorRecord hb rfl

/-- A write of the CMD row is permitted only at its first offset and 4 bytes wide, so at an aligned one (R43, R45). -/
theorem not_mapPermits_cmdRow {off : BitVec 12} {n : Width} (hlo : 0x200 ≤ off.toNat) (hhi : off.toNat ≤ 0x203)
    (h : n ≠ .w4 ∨ off.toNat % 4 ≠ 0) : ¬ MapPermits off.toNat n.bytes .write := by
  intro hmap
  obtain ⟨rfl, ⟨rfl, -⟩ | ⟨-, hdir⟩⟩ := mapPermits_register hlo (by omega) hmap
  · rcases h with hn | ha
    · exact hn rfl
    · exact ha rfl
  · cases hdir

/-- Settles O7: the causes are met in R143's order, BUSY, the decoding, then the operand of the decoded command, and a
rejected write of the CMD row is a bus fault. -/
theorem oneErrorCodeInPriorityOrder : Obligations.OneErrorCodeInPriorityOrder := by
  unfold Obligations.OneErrorCodeInPriorityOrder
  refine ⟨?code, ?bus⟩
  case code =>
    intro w s
    rw [← opField_eq, ← rsv0Field_eq, ← rsv1Field_eq, ← argField_eq]
    cases hb : s.busy with
    | true => simpa using issue_busy_rejected w hb
    | false =>
      simp only [Bool.false_eq_true, if_false]
      cases hd : decode w with
      | error e =>
        simp only [if_pos ((priority_illegal_iff w).2 ⟨e, hd⟩)]
        exact issue_illegal hd hb
      | ok i =>
        simp only [if_neg (mt (priority_illegal_iff w).1 (by simp [hd]))]
        obtain ⟨-, -, hop, harg, -⟩ := decode_ok_fields hd
        rw [issue_ok hd, hop, harg]
        exact exec_operandPriority i hb
  case bus =>
    intro s off n v rest hm hq hlo hhi h
    exact (step_write hm hq).trans (busWrite_fault (not_mapPermits_cmdRow hlo hhi h) v _)

end Sys2Proof.Machine
end

