-- ==== Sys2Proof/Proofs/EncodeDecode.lean ====
section
/-! PROOFS. The statements that encoding and decoding agree (30_encoding.md R60, R66, R67) and on the example words
(R68). -/

namespace Sys2Proof

/-- The fields of the word that `encode` gives (R60, R61), for every command. -/
theorem encode_fields {i : Instr} (h : i.WellFormed) :
    opField (encode i) = i.opcode ∧ argField (encode i) = i.arg ∧ rsv0Field (encode i) = 0 ∧
      rsv1Field (encode i) = 0 := by
  cases i with
  | init nr => exact Laws.EncodedFields.init nr h
  | absorb len => exact Laws.EncodedFields.absorb len h
  | permute => exact Laws.EncodedFields.permute h
  | extract len => exact Laws.EncodedFields.extract len h
  | wipe => exact Laws.EncodedFields.wipe h
  | clrerr => exact Laws.EncodedFields.clrerr h

theorem decode_encode {i : Instr} (h : i.WellFormed) : decode (encode i) = .ok i := by
  obtain ⟨hop, harg, h0, h1⟩ := encode_fields h
  exact decode_of_fields h0 h1 hop harg

/-- The four fields of R60 cover the 32 bits of a word. -/
theorem cmdWord_eq_of_fields {w w' : CmdWord} (hop : opField w = opField w') (h0 : rsv0Field w = rsv0Field w')
    (harg : argField w = argField w') (h1 : rsv1Field w = rsv1Field w') : w = w' := by
  rw [opField_eq, opField_eq] at hop
  rw [rsv0Field_eq, rsv0Field_eq] at h0
  rw [argField_eq, argField_eq] at harg
  rw [rsv1Field_eq, rsv1Field_eq] at h1
  apply BitVec.eq_of_toNat_eq
  omega

/-- Settles O10: `decode_encode`, from the fields of the encoded word. -/
theorem decodeOfEncode : Obligations.DecodeOfEncode := by
  unfold Obligations.DecodeOfEncode
  exact fun _ => decode_encode

/-- Settles O11: the word and the encoding of its command have the same fields. -/
theorem encodeOfDecode : Obligations.EncodeOfDecode := by
  unfold Obligations.EncodeOfDecode
  intro w i hd
  obtain ⟨h0, h1, hop, harg, hwf⟩ := decode_ok_fields hd
  obtain ⟨eop, earg, e0, e1⟩ := encode_fields hwf
  exact ⟨hwf, cmdWord_eq_of_fields (eop.trans hop.symm) (e0.trans h0.symm) (earg.trans harg.symm) (e1.trans h1.symm)⟩

/-- Settles O13: the decoder is run on the twenty words. -/
theorem exampleWordsDecode : Obligations.ExampleWordsDecode := by
  unfold Obligations.ExampleWordsDecode
  decide

end Sys2Proof
end

