-- ==== Sys2Proof/Proofs/CommandFrame.lean ====
section
/-! PROOFS. The statements about every command: each answers a next state (40_sponge_commands.md R94), and
the frame of each, field by field. -/

namespace Sys2Proof.Machine

/-- What a command can do: it records an error, or it is accepted and has its effect. -/
theorem exec_rejects_or_accepts {i : Instr} {s t : State} (h : exec i s = .next t) :
    (∃ e, t = cmdError e s) ∨ (s.busy = false ∧ operandError i = none ∧ t = commandEffect i s) := by
  rw [exec_eq] at h
  rcases runCommand_cases h with ⟨_, ht⟩ | ⟨_, e, _, ht⟩ | haccept
  · exact .inl ⟨_, ht⟩
  · exact .inl ⟨e, ht⟩
  · exact .inr haccept

/-- Settles O8: a command is `runCommand`, which answers a next state, and so does a word, decoded or not. -/
theorem commandsNeverStopTheMachine : Obligations.CommandsNeverStopTheMachine := by
  unfold Obligations.CommandsNeverStopTheMachine
  exact ⟨fun i s => ⟨_, (exec_eq i s).trans (runCommand_eq ..)⟩, issue_next⟩

theorem commandEffect_hostSide (i : Instr) (s : State) :
    (commandEffect i s).queue = s.queue ∧ (commandEffect i s).replies = s.replies ∧
      (commandEffect i s).inst = s.inst := by
  cases i <;>
    simp [commandEffect, initEffect, absorbEffect, permuteEffect, extractEffect, wipeEffect, clrerrEffect]

/-- Which commands write a lane. -/
theorem commandEffect_lanes (i : Instr) (s : State) :
    (commandEffect i s).lanes = s.lanes ∨ (∃ nr, i = .init nr) ∨ (∃ len, i = .absorb len) ∨ i = .wipe := by
  cases i with
  | init nr => exact .inr (.inl ⟨nr, rfl⟩)
  | absorb len => exact .inr (.inr (.inl ⟨len, rfl⟩))
  | wipe => exact .inr (.inr (.inr rfl))
  | permute | extract | clrerr => simp [commandEffect, permuteEffect, extractEffect, clrerrEffect]

/-- Which commands write ROUNDS. -/
theorem commandEffect_rounds (i : Instr) (s : State) :
    (commandEffect i s).rounds = s.rounds ∨ (∃ nr, i = .init nr) ∨ i = .wipe := by
  cases i with
  | init nr => exact .inr (.inl ⟨nr, rfl⟩)
  | wipe => exact .inr (.inr rfl)
  | absorb | permute | extract | clrerr =>
    simp [commandEffect, absorbEffect, permuteEffect, extractEffect, clrerrEffect]

/-- WIPE alone writes IN_BUF. -/
theorem commandEffect_inBuf (i : Instr) (s : State) : (commandEffect i s).inBuf = s.inBuf ∨ i = .wipe := by
  cases i with
  | wipe => exact .inr rfl
  | init | absorb | permute | extract | clrerr =>
    simp [commandEffect, initEffect, absorbEffect, permuteEffect, extractEffect, clrerrEffect]

/-- Which commands write OUT_BUF. -/
theorem commandEffect_outBuf (i : Instr) (s : State) :
    (commandEffect i s).outBuf = s.outBuf ∨ (∃ len, i = .extract len) ∨ i = .wipe := by
  cases i with
  | extract len => exact .inr (.inl ⟨len, rfl⟩)
  | wipe => exact .inr (.inr rfl)
  | init | absorb | permute | clrerr =>
    simp [commandEffect, initEffect, absorbEffect, permuteEffect, clrerrEffect]

/-- A command that issues no permutation leaves BUSY, PENDING and the model's delay fields. -/
theorem commandEffect_permutationFields {i : Instr} (ha : ∀ len, i ≠ .absorb len) (hp : i ≠ .permute) (s : State) :
    (commandEffect i s).busy = s.busy ∧ (commandEffect i s).pending = s.pending ∧
      (commandEffect i s).delay = s.delay ∧ (commandEffect i s).draws = s.draws := by
  cases i with
  | absorb len => exact absurd rfl (ha len)
  | permute => exact absurd rfl hp
  | init | extract | wipe | clrerr =>
    simp [commandEffect, initEffect, extractEffect, wipeEffect, clrerrEffect]

/-- ABSORB leaves the lanes beyond its block (R82). -/
theorem laneOf_absorbBlock_of_le {len k : Nat} (h : len ≤ 8 * k) (m : Memory) (A : Lanes) :
    laneOf (absorbBlock len m A) k = laneOf A k := by
  by_cases hk : k < 25
  · rw [absorbBlock, laneOf_lanesOf_lt hk, if_neg (by omega)]
  · rw [laneOf_ge _ (by omega), laneOf_ge _ (by omega)]

theorem extractError_eq_none {len : Nat} : extractError len = none ↔ len ≤ 200 := by
  simp [extractError]

/-- Settles O9: a rejection leaves all but the error record, and each field's clause for an effect is a lemma above. -/
theorem commandFrame : Obligations.CommandFrame := by
  unfold Obligations.CommandFrame
  intro i s t h
  rcases exec_rejects_or_accepts h with ⟨e, rfl⟩ | ⟨-, hop, rfl⟩
  · obtain ⟨hsame, herr, hcode⟩ := cmdError_rejected e s
    obtain ⟨hlanes, hrounds, hin, hout, hpending, hbusy, hqueue, hreplies, hdelay, hdraws, hinst⟩ := hsame
    have hlane : ∀ k, (cmdError e s).lane k = s.lane k := fun k => congrArg (laneOf · k) hlanes
    have hinByte : ∀ k, (cmdError e s).inByte k = s.inByte k := fun k => congrArg (Memory.read · k) hin
    have houtByte : ∀ k, (cmdError e s).outByte k = s.outByte k := fun k => congrArg (Memory.read · k) hout
    exact ⟨hqueue, hreplies, hinst, fun _ _ _ => hlanes, fun _ _ k _ => hlane k, fun _ _ => hrounds,
      fun _ => hinByte, fun _ _ => houtByte, fun _ _ _ k _ => houtByte k,
      fun _ _ => ⟨hbusy, hpending, hdelay, hdraws⟩, fun _ _ hs => ⟨herr, by rw [hcode, if_pos hs]⟩⟩
  · obtain ⟨hqueue, hreplies, hinst⟩ := commandEffect_hostSide i s
    refine ⟨hqueue, hreplies, hinst, fun hi ha hw => (commandEffect_lanes i s).resolve_right (by simp [hi, ha, hw]),
      ?absorbed, fun hi hw => (commandEffect_rounds i s).resolve_right (by simp [hi, hw]),
      fun hw k => congrArg (Memory.read · k) ((commandEffect_inBuf i s).resolve_right hw),
      fun he hw k => congrArg (Memory.read · k) ((commandEffect_outBuf i s).resolve_right (by simp [he, hw])),
      ?extracted, fun ha hp => commandEffect_permutationFields ha hp s, ?errorRecord⟩
    case absorbed =>
      rintro len rfl k hk
      exact laneOf_absorbBlock_of_le hk s.inBuf s.lanes
    case extracted =>
      rintro len rfl hwf k hk
      exact (extractEffect_outByte (extractError_eq_none.1 hop) hwf k).trans (if_neg (Nat.not_lt.2 hk))
    case errorRecord =>
      intro hw hc hs
      obtain ⟨herr, hcode⟩ := commandEffect_errorRecord hw hc s
      exact ⟨herr.trans hs, hcode⟩

end Sys2Proof.Machine
end

