-- ==== Sys2Proof/Proofs/Invariant.lean ====
section
/-! PROOFS. The invariant of 10_state.md (R26, R33) and 60_exceptions.md (R141): it holds after reset and every step
keeps it. -/

namespace Sys2Proof.Machine

/-! ### The operations on the state -/

section Inv

variable {s : State}

theorem State.Inv.rounds_le (h : s.Inv) : s.rounds.toNat ≤ 24 := by
  obtain ⟨hrounds, -⟩ := h
  exact hrounds

theorem State.Inv.busy_eq (h : s.Inv) : s.busy = s.pending := by
  obtain ⟨-, hbusy, -⟩ := h
  exact hbusy

theorem State.Inv.inBuf_wf (h : s.Inv) : s.inBuf.wf = true := by
  obtain ⟨-, -, -, -, hin, -⟩ := h
  exact hin

theorem State.Inv.outBuf_wf (h : s.Inv) : s.outBuf.wf = true := by
  obtain ⟨-, -, -, -, -, hout⟩ := h
  exact hout

/-- The invariant reads neither the lanes nor the host's side. -/
theorem State.Inv.setLanes (h : s.Inv) (A : Lanes) : (s.setLanes A).Inv := h

theorem State.Inv.takeOp (h : s.Inv) (rest : List HostOp) : (s.takeOp rest).Inv := h

theorem State.Inv.addReply (h : s.Inv) (r : ReadReply) : (s.addReply r).Inv := h

theorem State.Inv.setQueue (h : s.Inv) (q : List HostOp) : (s.setQueue q).Inv := h

theorem State.Inv.setRounds (h : s.Inv) {nr : BitVec 5} (hnr : nr.toNat ≤ 24) : (s.setRounds nr).Inv :=
  ⟨hnr, h.2⟩

theorem State.Inv.setInBuf (h : s.Inv) {m : Memory} (hm : m.wf = true) : (s.setInBuf m).Inv := by
  obtain ⟨hrounds, hbusy, hclear, hcode, -, hout⟩ := h
  exact ⟨hrounds, hbusy, hclear, hcode, hm, hout⟩

theorem State.Inv.setOutBuf (h : s.Inv) {m : Memory} (hm : m.wf = true) : (s.setOutBuf m).Inv := by
  obtain ⟨hrounds, hbusy, hclear, hcode, hin, -⟩ := h
  exact ⟨hrounds, hbusy, hclear, hcode, hin, hm⟩

/-- An issue sets PENDING and BUSY together (R82, R83). -/
theorem State.Inv.startPermutation (h : s.Inv) : s.startPermutation.Inv := by
  obtain ⟨hrounds, -, hrest⟩ := h
  exact ⟨hrounds, rfl, hrest⟩

/-- A completion clears PENDING and BUSY together (R84). -/
theorem State.Inv.endPermutation (h : s.Inv) : s.endPermutation.Inv := by
  obtain ⟨hrounds, -, hrest⟩ := h
  exact ⟨hrounds, rfl, hrest⟩

/-- Clearing the error record (R86, R87). -/
theorem State.Inv.clearErr (h : s.Inv) : (s.setErr false 0).Inv := by
  obtain ⟨hrounds, hbusy, -, -, hbufs⟩ := h
  exact ⟨hrounds, hbusy, fun _ => rfl, fun herr => absurd herr Bool.false_ne_true, hbufs⟩

/-- Every code of R141 is from 1 to 5. -/
theorem errorCode_range (e : CmdError) : 1 ≤ (errorCode e).toNat ∧ (errorCode e).toNat ≤ 5 := by
  cases e <;> decide

/-- Recording an error keeps the first code or records one of R141. -/
theorem State.Inv.cmdError (h : s.Inv) (e : CmdError) : (cmdError e s).Inv := by
  obtain ⟨hrounds, hbusy, -, hcode, hbufs⟩ := h
  rw [cmdError_eq]
  refine ⟨hrounds, hbusy, fun herr => absurd herr.symm Bool.false_ne_true, fun _ => ?_, hbufs⟩
  rw [State.setErr_errCode]
  split
  · next hs => exact hcode hs
  · exact errorCode_range e

end Inv

/-- Settles O20: the fields of the reset state are read off. -/
theorem resetMeetsTheInvariant : Obligations.ResetMeetsTheInvariant := by
  unfold Obligations.ResetMeetsTheInvariant State.Inv
  decide

/-- The reset puts every field that the invariant reads at its reset value (R160). -/
theorem resetEngine_inv (s : State) : s.resetEngine.Inv := resetMeetsTheInvariant

theorem roundsError_eq_none {nr : Nat} : roundsError nr = none ↔ nr ≤ 24 := by
  simp [roundsError]

/-- The effect of an accepted command keeps the invariant; only INIT's round count and EXTRACT's bytes need their
operand check. -/
theorem commandEffect_inv {i : Instr} {s : State} (h : s.Inv) (hop : operandError i = none) :
    (commandEffect i s).Inv := by
  cases i with
  | init nr =>
    have hnr : nr ≤ 24 := roundsError_eq_none.1 hop
    exact (h.setLanes zeroLanes).setRounds ((initEffect_rounds_toNat hnr s).trans_le hnr)
  | absorb len => exact (h.setLanes _).startPermutation
  | permute => exact h.startPermutation
  | extract len =>
    have hlen : 0 + (serialise s.lanes len).length ≤ bufBytes := by
      simpa [bufBytes] using extractError_eq_none.1 hop
    exact h.setOutBuf (Memory.wf_writeBytes h.outBuf_wf hlen)
  | wipe =>
    exact ((((h.setLanes zeroLanes).setInBuf Memory.wf_nil).setOutBuf Memory.wf_nil).setRounds (by decide)).clearErr
  | clrerr => exact h.clearErr

theorem issue_inv {w : CmdWord} {s t : State} (h : s.Inv) (hi : issue w s = .next t) : t.Inv := by
  rcases issue_rejects_or_accepts hi with ⟨e, rfl⟩ | ⟨-, i, -, hop, rfl⟩
  · exact h.cmdError e
  · exact commandEffect_inv h hop

/-- A permitted store into IN_BUF stays inside it (R45), so its canonical form is kept. -/
theorem store_inv {off : BitVec 12} {n : Width} {s : State} (h : s.Inv) (hp : permitted off n .write = true)
    (hr : regionOf off = .inBuf) (v : BitVec 64) :
    (s.setInBuf (s.inBuf.writeBytes off.toNat (leBytes v n.bytes))).Inv :=
  h.setInBuf (Memory.wf_writeBytes h.inBuf_wf (by simpa using inBuf_inside hp hr))

/-- One host operation keeps the invariant, which reads neither the queue nor the replies. -/
theorem perform_inv {op : HostOp} {s t : State} (h : s.Inv) (hp : perform op s = .next t) : t.Inv := by
  rcases perform_cases hp with ⟨_, _, -, -, rfl⟩ | ⟨_, _, v, -, hpm, hr, rfl⟩ | ⟨_, _, -, -, -, hi⟩ | ⟨-, rfl⟩ |
    ⟨-, -, rfl⟩ | ⟨-, rfl⟩
  · exact h.addReply _
  · exact store_inv h hpm hr v
  · exact issue_inv h hi
  · split
    · exact (h.addReply _).setQueue _
    · exact h.addReply _
  · exact h.addReply _
  · exact resetEngine_inv s

theorem step_inv {s t : State} (h : s.Inv) (hs : step s = .next t) : t.Inv := by
  rcases step_cases hs with ⟨-, hc⟩ | ⟨-, -, rfl⟩ | ⟨-, op, rest, -, hp⟩
  · obtain ⟨-, rfl⟩ := complete_cases hc
    exact (h.setLanes _).endPermutation
  · exact h
  · exact perform_inv (h.takeOp rest) hp

/-- Settles O19: the completion, the host's operation and the commands each keep the invariant. -/
theorem stepKeepsTheInvariant : Obligations.StepKeepsTheInvariant := by
  unfold Obligations.StepKeepsTheInvariant
  exact fun _ _ => step_inv

end Sys2Proof.Machine
end

