-- ==== Sys2Proof/Proofs/Step.lean ====
section
/-! PROOFS. The statements about one step: the fetched command, the completion (R84), the silent host (R97), the reset
event (R160), and what writes the lanes, ROUNDS (R23, R26) and the buffers (R27, R28). -/

namespace Sys2Proof.Machine

/-! ### Which agent moves -/

/-- The engine moves only with a permutation pending (R84). -/
theorem engineMoves_of_not_pending {s : State} (h : s.pending = false) : engineMoves s = false := by
  rw [engineMoves, h, Bool.false_and]

/-- The engine moves when its pending permutation is due or the host is silent (R84, R97). -/
theorem engineMoves_of_due {s : State} (hp : s.pending = true) (hd : s.delay = 0 ∨ s.queue = []) :
    engineMoves s = true := by
  rcases hd with hd | hd <;> simp [engineMoves, hp, hd]

/-- The host moves while it has an operation and the completion is not due. -/
theorem engineMoves_of_delay {s : State} {op : HostOp} {rest : List HostOp} (hq : s.queue = op :: rest)
    (hd : 0 < s.delay) : engineMoves s = false := by
  simp [engineMoves, hq, Nat.ne_of_gt hd]

/-- The engine does not move before an operation of the host while its completion is not due. -/
theorem engineMoves_of_not_due {s : State} {op : HostOp} {rest : List HostOp} (hq : s.queue = op :: rest)
    (h : s.pending = false ∨ 1 ≤ s.delay) : engineMoves s = false := by
  rcases h with h | h
  · exact engineMoves_of_not_pending h
  · exact engineMoves_of_delay hq h

/-- The step of a due completion. -/
theorem step_due {s : State} (hp : s.pending = true) (hd : s.delay = 0 ∨ s.queue = []) (hr : s.rounds.toNat ≤ 24) :
    step s = .next (s.setLanes (keccakP s.rounds.toNat s.lanes)).endPermutation :=
  (step_completion (engineMoves_of_due hp hd)).trans (complete_next hr)

/-- A CMD write issues its word on the state from which it has been taken (R48). -/
theorem step_cmd {s : State} {v : BitVec 64} {rest : List HostOp} (hm : engineMoves s = false)
    (hq : s.queue = .write cmdOffset .w4 v :: rest) : step s = issue (v.setWidth 32) (s.takeOp rest) :=
  (step_write hm hq).trans (busWrite_cmd v _)

/-! ### The fetched command -/

/-- The word that `withFetchWord` puts on the bus. -/
theorem fetchWord_setWidth (w : Nat) : (BitVec.ofNat 64 (w % 2 ^ 32 % 2 ^ 32)).setWidth 32 = BitVec.ofNat 32 w := by
  apply BitVec.eq_of_toNat_eq
  rw [BitVec.toNat_setWidth, BitVec.toNat_ofNat, BitVec.toNat_ofNat]
  omega

/-- Taking the fetched word gives back the state. -/
theorem withFetchWord_takeOp (s : State) (nbits w : Nat) : (s.withFetchWord nbits w).takeOp s.queue = s := rfl

/-- The fetched word goes first: the completion is at least one operation away. -/
theorem step_withFetchWord (s : State) (w : Nat) :
    step (s.withFetchWord 32 w) = issue (BitVec.ofNat 32 w) s := by
  rw [step_cmd (engineMoves_of_delay rfl (Nat.succ_pos s.delay)) rfl, fetchWord_setWidth, withFetchWord_takeOp]

/-- Settles O14: a CMD write is `step_cmd`, a fetched word `step_withFetchWord`. -/
theorem stepRunsTheDecodedCommand : Obligations.StepRunsTheDecodedCommand := by
  unfold Obligations.StepRunsTheDecodedCommand
  exact ⟨fun s v rest i hm hq hd => (step_cmd hm hq).trans (issue_ok hd),
    fun s w i hd => (step_withFetchWord s w).trans (issue_ok hd)⟩

/-! ### The completion and the silent host -/

/-- With no permutation pending, a step is the host's. -/
theorem step_eq_hostStep {s : State} (h : s.pending = false) : step s = hostStep s := by
  rw [step, agentStep, if_neg (by simp [engineMoves_of_not_pending h])]

/-- Settles O15: a due completion is `step_due`, or the stop of `complete`; with none pending the host moves. -/
theorem completionAppliesThePermutation : Obligations.CompletionAppliesThePermutation := by
  unfold Obligations.CompletionAppliesThePermutation
  refine ⟨fun s hp hd hr => ⟨_, step_due hp hd hr, rfl, rfl, rfl, rfl, rfl, rfl, rfl, rfl, rfl, rfl, rfl, rfl⟩,
    fun s hp hd hr => ?_, fun s => step_eq_hostStep⟩
  rw [step_completion (engineMoves_of_due hp hd), complete, if_neg (Nat.not_le.2 hr)]

/-- Settles O16: the completion comes at once, and in the state it leaves nothing moves. -/
theorem silentHostLeavesTheEngineAlone : Obligations.SilentHostLeavesTheEngineAlone := by
  unfold Obligations.SilentHostLeavesTheEngineAlone
  intro s hq
  exact ⟨fun hp => step_idle (engineMoves_of_not_pending hp) hq,
    fun hp hr => ⟨_, step_due hp (.inr hq) hr, rfl, step_idle (engineMoves_of_not_pending rfl) hq, hq, rfl⟩⟩

/-! ### The reset event -/

theorem step_reset {s : State} {rest : List HostOp} (hm : engineMoves s = false) (hq : s.queue = .reset :: rest) :
    step s = .next (s.takeOp rest).resetEngine :=
  step_host hm hq

/-- Settles O17: the fields of the reset engine are read off, and its next CMD write is `step_cmd`. -/
theorem resetEventRestoresEveryRegister : Obligations.ResetEventRestoresEveryRegister := by
  unfold Obligations.ResetEventRestoresEveryRegister
  intro s rest hm hq
  refine ⟨_, step_reset hm hq, fun i _ => laneOf_zeroLanes i, rfl, fun _ => rfl, fun _ => rfl, rfl, rfl, rfl, rfl,
    ?status, rfl, rfl, rfl, fun v more hrest => step_cmd (engineMoves_of_not_pending rfl) hrest⟩
  rw [status_toNat]
  rfl

/-! ### What writes each piece of state -/

/-- Who can write the lanes, ROUNDS and the buffers in a step: the reset; an accepted command; else at most the
completion, which writes the lanes, or a host write into IN_BUF. -/
theorem step_writers {s t : State} (h : step s = .next t) :
    ResetNow s ∨
    (s.busy = false ∧ ∃ i rest, CommandWritten i s ∧ t = commandEffect i (s.takeOp rest)) ∨
    (t.rounds = s.rounds ∧ t.outBuf = s.outBuf ∧
      (t.lanes = s.lanes ∨ (engineMoves s = true ∧ s.pending = true)) ∧
      (t.inBuf = s.inBuf ∨
        (engineMoves s = false ∧ ∃ off n v rest, s.queue = .write off n v :: rest ∧ off.toNat ≤ 0x0C7))) := by
  rcases step_changes h with ⟨hm, hp, -, rfl⟩ | ⟨_, _, _, rfl⟩ | ⟨hm, off, n, v, rest, _, hq, hoff, rfl⟩ |
    ⟨hm, v, rest, hq, hi⟩ | ⟨hr, -⟩
  · exact .inr (.inr ⟨rfl, rfl, .inr ⟨hm, hp⟩, .inl rfl⟩)
  · exact .inr (.inr ⟨rfl, rfl, .inl rfl, .inl rfl⟩)
  · exact .inr (.inr ⟨rfl, rfl, .inl rfl, .inr ⟨hm, off, n, v, rest, hq, hoff⟩⟩)
  · rcases issue_rejects_or_accepts hi with ⟨e, rfl⟩ | ⟨hb, i, hd, -, rfl⟩
    · rw [cmdError_eq]
      exact .inr (.inr ⟨rfl, rfl, .inl rfl, .inl rfl⟩)
    · exact .inr (.inl ⟨hb, i, rest, ⟨hm, v, rest, hq, hd⟩, rfl⟩)
  · exact .inl hr

/-- Settles O21: the writers of `step_writers`, and of the commands those of `commandEffect_lanes` and
`commandEffect_rounds`. -/
theorem writersOfLanesAndRounds : Obligations.WritersOfLanesAndRounds := by
  unfold Obligations.WritersOfLanesAndRounds
  intro s t h
  rcases step_writers h with hr | ⟨hb, i, rest, hw, rfl⟩ | ⟨hrounds, -, hlanes, -⟩
  · exact ⟨fun _ => .inr (.inl hr), fun _ => .inl hr⟩
  · exact ⟨fun hne => .inr (.inr ⟨hb, i, hw, (commandEffect_lanes i _).resolve_left hne⟩),
      fun hne => .inr ⟨hb, i, hw, (commandEffect_rounds i _).resolve_left hne⟩⟩
  · exact ⟨fun hne => .inl (hlanes.resolve_left hne), fun hne => absurd hrounds hne⟩

/-- Settles O22: the writers of `step_writers`, and of the commands those of `commandEffect_inBuf` and
`commandEffect_outBuf`. -/
theorem writersOfTheBuffers : Obligations.WritersOfTheBuffers := by
  unfold Obligations.WritersOfTheBuffers
  intro s t h
  rcases step_writers h with hr | ⟨hb, i, rest, hw, rfl⟩ | ⟨-, hout, -, hin⟩
  · exact ⟨fun _ => .inl hr, fun _ => .inl hr⟩
  · refine ⟨fun hne => ?_, fun hne => .inr ⟨hb, i, hw, (commandEffect_outBuf i _).resolve_left hne⟩⟩
    obtain rfl := (commandEffect_inBuf i _).resolve_left hne
    exact .inr (.inl ⟨hb, hw⟩)
  · exact ⟨fun hne => .inr (.inr (hin.resolve_left hne)), fun hne => absurd hout hne⟩

end Sys2Proof.Machine
end

