-- ==== Sys2Proof/Proofs/Window.lean ====
section
/-! PROOFS. The statements about reads of OUT_BUF (20_memory.md R41, R44, R47, R49), each window (R42) and the
engines of a platform (60_exceptions.md R150). -/

namespace Sys2Proof.Machine

/-! ### OUT_BUF -/

theorem mapPermits_outBuf {off n : Nat} (hlo : 0x100 ≤ off) (hhi : off ≤ 0x1C7) (ha : off % n = 0) :
    MapPermits off n .read :=
  ⟨ha, .inr (.inl ⟨hlo, hhi, rfl⟩)⟩

theorem regionOf_outBuf {off : BitVec 12} (hlo : 0x100 ≤ off.toNat) (hhi : off.toNat ≤ 0x1C7) :
    regionOf off = .outBuf := by
  rw [regionOf, if_neg (by omega), if_neg (by omega), if_pos hhi]

theorem readValue_outBuf {off : BitVec 12} (hlo : 0x100 ≤ off.toNat) (hhi : off.toNat ≤ 0x1C7) (n : Width)
    (s : State) : readValue off n s = leValue (s.outBuf.readBytes (off.toNat - 0x100) n.bytes) := by
  rw [readValue, regionOf_outBuf hlo hhi, outBufOffset]

/-- After EXTRACT the whole 8-byte group `i` of OUT_BUF is lane `i` (R40, R41). -/
theorem laneIn_extractEffect {len i : Nat} {s : State} (hlen : len ≤ 200) (hwf : s.outBuf.wf = true)
    (hi : 8 * i + 8 ≤ len) : laneIn (extractEffect len s).outBuf i = s.lane i := by
  apply BitVec.eq_of_getLsbD_eq
  intro j hj
  have hbyte : (extractEffect len s).outBuf.read (8 * i + j / 8) = serByte s.lanes (8 * i + j / 8) :=
    (extractEffect_outByte hlen hwf _).trans (if_pos (by omega))
  have hlane : (8 * i + j / 8) / 8 = i := by omega
  have hbit : 8 * ((8 * i + j / 8) % 8) + j % 8 = j := by omega
  rw [getLsbD_laneIn, hbyte, getLsbD_serByte, hlane, hbit, decide_eq_true hj,
    decide_eq_true (Nat.mod_lt j (by decide)), Bool.true_and, Bool.true_and, State.lane]

/-- Settles O29: the read returns the 8-byte group that `laneIn_extractEffect` says. -/
theorem extractedLaneReadsBackUnchanged : Obligations.ExtractedLaneReadsBackUnchanged := by
  unfold Obligations.ExtractedLaneReadsBackUnchanged
  intro s i hb hwf hi
  have hoff : (BitVec.ofNat 12 (0x100 + 8 * i)).toNat = 0x100 + 8 * i :=
    (BitVec.toNat_ofNat ..).trans (Nat.mod_eq_of_lt (by omega))
  have hmap : MapPermits (BitVec.ofNat 12 (0x100 + 8 * i)).toNat Width.w8.bytes .read :=
    mapPermits_outBuf (by omega) (by omega) (by rw [hoff, Width.bytes]; omega)
  refine ⟨_, _, exec_ok hb rfl, busRead_permitted hmap _, ?_⟩
  have hvalue : readValue (BitVec.ofNat 12 (0x100 + 8 * i)) .w8 (extractEffect 200 s) = s.lane i := by
    rw [readValue_outBuf (by omega) (by omega), hoff, Nat.add_sub_cancel_left]
    exact laneIn_extractEffect le_rfl hwf (by omega)
  rw [State.addReply_replies, commandEffect, hvalue, List.head?_cons]

/-! ### Repeated reads -/

/-- A permitted read answers its value and changes nothing but the host's side (R49). -/
theorem step_read_permitted {s : State} {off : BitVec 12} {n : Width} {rest : List HostOp}
    (hm : engineMoves s = false) (hq : s.queue = .read off n :: rest) (h : MapPermits off.toNat n.bytes .read) :
    step s = .next ((s.takeOp rest).addReply ⟨off, n, readValue off n s⟩) :=
  (step_read hm hq).trans (busRead_permitted h _)

/-- Settles O30: two reads in a row, neither of which changes what the other reads. -/
theorem repeatedReadReturnsTheSameValue : Obligations.RepeatedReadReturnsTheSameValue := by
  unfold Obligations.RepeatedReadReturnsTheSameValue
  intro s off n rest h hq hmap
  have hfirst := step_read_permitted (engineMoves_of_not_due hq (h.imp_right (by omega))) hq hmap
  have hsecond := step_read_permitted
    (s := (s.takeOp (.read off n :: rest)).addReply ⟨off, n, readValue off n s⟩)
    (engineMoves_of_not_due rfl (h.imp_right Nat.le_sub_one_of_lt)) rfl hmap
  exact ⟨_, readValue off n s, (run_succ hfirst 1).trans (run_succ hsecond 0), rfl, rfl, rfl, rfl, rfl, rfl⟩

/-! ### The window and the platform -/

/-- Settles O31: an address of the window is BASE plus an offset below 4096. -/
theorem windowAddressesNameOffsets : Obligations.WindowAddressesNameOffsets := by
  unfold Obligations.WindowAddressesNameOffsets
  intro inst addr off
  have hoff := off.isLt
  rw [windowOffset, hostAddress]
  refine ⟨?some, ?none, by rw [Config.base, Nat.mul_mod_right]⟩
  case some =>
    split
    · next hin =>
      rw [Option.some.injEq, ← BitVec.toNat_inj, BitVec.toNat_ofNat]
      omega
    · next hout =>
      refine iff_of_false (by simp) ?_
      omega
  case none =>
    split
    · next hin => exact iff_of_false (by simp) (by omega)
    · next hout => exact iff_of_true rfl (by omega)

/-- What a platform step can do: with no engine `k` nothing, else a step of that engine alone. -/
theorem stepInstance_cases {k : Nat} {p q : Platform} (h : p.stepInstance k = .next q) :
    (p.engines[k]? = none ∧ q = p) ∨
    ∃ s t, p.engines[k]? = some s ∧ step s = .next t ∧ q = ⟨p.engines.set k t⟩ := by
  rw [Platform.stepInstance] at h
  split at h
  · next hk => cases h; exact .inl ⟨hk, rfl⟩
  · next s hk =>
    split at h
    · next t hs => cases h; exact .inr ⟨s, t, hk, hs, rfl⟩
    · cases h
    · cases h

/-- Settles O32: the two cases of `stepInstance_cases`; setting place `k` of a list leaves the others. -/
theorem instancesShareNothing : Obligations.InstancesShareNothing := by
  unfold Obligations.InstancesShareNothing
  intro k p q h
  rcases stepInstance_cases h with ⟨hk, rfl⟩ | ⟨s, t, hk, hs, rfl⟩
  · exact ⟨rfl, fun _ _ => rfl, fun s hs => by simp [hk] at hs⟩
  · refine ⟨List.length_set, fun j hj => List.getElem?_set_ne hj.symm, fun s' hs' => ?_⟩
    obtain rfl : s = s' := Option.some.inj (hk.symm.trans hs')
    obtain ⟨hlt, -⟩ := List.getElem?_eq_some_iff.1 hk
    exact ⟨t, hs, List.getElem?_set_self hlt⟩

end Sys2Proof.Machine

namespace Sys2Proof

open Machine

/-! In `Machine`, `outBufReads` is the model's function, so the theorem of that name stands here. -/

/-- Settles O27: the load is `busRead_permitted`, its value the bytes of `readValue_outBuf`. -/
theorem outBufReads : Obligations.OutBufReads := by
  unfold Obligations.OutBufReads
  intro s off n rest hm hq hlo hhi ha
  refine ⟨_, (step_read hm hq).trans (busRead_permitted (mapPermits_outBuf hlo hhi ha) _), fun j => ?_⟩
  rw [readValue_outBuf hlo hhi]
  exact getLsbD_leValue_readBytes s.outBuf (off.toNat - 0x100) n.bytes_le j

end Sys2Proof
end

