-- ==== Sys2Proof/Proofs/ThetaRhoPi.lean ====
section
/-! PROOFS. The statements about θ (R112), ρ with its offsets (R113, R114) and π (R115) of 41_permutation.md, and
ρ and π fused (R122). -/

namespace Sys2Proof.Machine

/-! ### θ -/

/-- A bit of a column parity is the parity of the column's five bits (R112). -/
theorem getLsbD_columnParity (A : Lanes) (x z : Nat) :
    (columnParity A x).getLsbD z =
      (List.range 5).foldl (fun b y => b ^^ (laneOf A (x % 5 + 5 * y)).getLsbD z) false := by
  simp [columnParity, laneAt, List.range_succ]

/-- θ fixes a state of equal lanes that the rotation by one leaves: the two parities of its mask cancel. -/
theorem theta_lanesOf_const {c : Lane} (h : rotl64 c 1 = c) : theta (lanesOf fun _ => c) = lanesOf fun _ => c := by
  apply lanes_ext_laneAt
  intro x y
  have hparity : ∀ x, columnParity (lanesOf fun _ => c) x = c := fun x => by
    simp [columnParity, laneAt_lanesOf]
  rw [laneAt_theta, thetaMask, hparity, hparity, h, BitVec.xor_self, BitVec.xor_zero]

/-- Settles O33: the mask of θ bit by bit, and the fixed states by `theta_lanesOf_const`. -/
theorem thetaBits : Obligations.ThetaBits := by
  unfold Obligations.ThetaBits
  refine ⟨?bits, ?zero, theta_lanesOf_const (by decide)⟩
  case bits =>
    intro A x y z hx hy hz
    have hmod : (x + 5 * y) % 5 = x := by omega
    rw [laneOf_theta A (by omega), hmod, thetaMask, BitVec.getLsbD_xor, BitVec.getLsbD_xor,
      getLsbD_rotl64 _ (by decide) hz, getLsbD_columnParity, getLsbD_columnParity, Bool.xor_assoc]
  case zero =>
    rw [zeroLanes_eq_lanesOf]
    exact theta_lanesOf_const (by decide)

/-! ### ρ -/

/-- A bit of ρ comes from RHO[i] positions below, mod 64 (R113). -/
theorem getLsbD_laneOf_rho (A : Lanes) {i j : Nat} (hi : i < 25) (hj : j < 64) :
    (laneOf (rho A) i).getLsbD j = (laneOf A i).getLsbD ((j + 64 - rhoOffset i) % 64) := by
  have hr := rhoOffset_lt i hi
  rw [laneOf_rho A hi, getLsbD_rotl64 _ hr hj, Nat.add_sub_assoc (by omega)]

/-- The position of the walk from (1, 0) after `t` steps is in the lane array, and the table holds its offset (R114). -/
theorem rhoOffset_rhoWalk : ∀ t < 24, (rhoWalk t).1 + 5 * (rhoWalk t).2 < 25 ∧
    rhoOffset ((rhoWalk t).1 + 5 * (rhoWalk t).2) = (t + 1) * (t + 2) / 2 % 64 := by decide

theorem rho_lane_injective {A B : Lanes} {i : Nat} (hi : i < 25) (h : laneOf (rho A) i = laneOf (rho B) i) :
    laneOf A i = laneOf B i := by
  rw [laneOf_rho A hi, laneOf_rho B hi] at h
  exact rotl64_injective (rhoOffset_lt i hi) h

/-- Settles O34: the rotation by the table is `getLsbD_laneOf_rho`, and the table is the walk by `rhoOffset_rhoWalk`. -/
theorem rhoRotatesByTheTable : Obligations.RhoRotatesByTheTable := by
  unfold Obligations.RhoRotatesByTheTable
  refine ⟨fun A i j => getLsbD_laneOf_rho A, ?walk, ?zero, lanes_bijective rho_injective,
    fun A B i => rho_lane_injective⟩
  case walk =>
    intro A t j ht hj
    obtain ⟨hlt, hoffset⟩ := rhoOffset_rhoWalk t ht
    rw [getLsbD_laneOf_rho A hlt hj, hoffset]
  case zero =>
    intro A
    apply BitVec.eq_of_getLsbD_eq
    intro j hj
    have hback : (j + 64 - rhoOffset 0) % 64 = j := by rw [show rhoOffset 0 = 0 from rfl]; omega
    rw [getLsbD_laneOf_rho A (by decide) hj, hback]

/-! ### π -/

/-- π moves the lane at (x, y) to (y, (2x + 3y) mod 5) (R115). -/
theorem laneOf_piStep_moved (A : Lanes) {x y : Nat} (hx : x < 5) (hy : y < 5) :
    laneOf (piStep A) (y + 5 * ((2 * x + 3 * y) % 5)) = laneOf A (x + 5 * y) := by
  rw [← laneAt_eq hx hy, laneAt_eq_laneAt_piStep A, laneAt, Nat.mod_eq_of_lt hy]

/-- The list of R115 is the move of each position. -/
theorem piList_eq : ∀ i < 25,
    [0, 10, 20, 5, 15, 16, 1, 11, 21, 6, 7, 17, 2, 12, 22, 23, 8, 18, 3, 13, 14, 24, 9, 19, 4].getD i 0 =
      i / 5 + 5 * ((2 * (i % 5) + 3 * (i / 5)) % 5) := by decide

/-- Settles O35: the moved lanes are `laneOf_piStep_moved`, the gathered form is `laneAt_piStep`, the positions are
arithmetic mod 5. -/
theorem piMovesLanes : Obligations.PiMovesLanes := by
  unfold Obligations.PiMovesLanes
  refine ⟨fun A x y => laneOf_piStep_moved A, ?list, ?gathered, fun x y hx hy => by omega,
    fun x y u v hx hy hu hv h1 h2 => by omega, lanes_bijective piStep_injective⟩
  case list =>
    intro A i hi
    rw [piList_eq i hi, laneOf_piStep_moved A (Nat.mod_lt i (by decide)) (by omega), Nat.mod_add_div]
  case gathered =>
    intro A x y hx hy
    rw [← laneAt_eq hx hy, laneAt_piStep, laneAt, Nat.mod_eq_of_lt hx]

/-! ### ρ and π fused -/

/-- Settles O39: π moves the lane that ρ has rotated at its source. -/
theorem rhoThenPiFused : Obligations.RhoThenPiFused := by
  unfold Obligations.RhoThenPiFused
  intro A x y hx hy
  rw [laneOf_piStep_moved (rho A) hx hy, laneOf_rho A (by omega)]

end Sys2Proof.Machine
end

