-- ==== Sys2Proof/Proofs/Waiting.lean ====
section
/-! PROOFS. The statements about a host that waits: no command of it finds BUSY = 1 (40_sponge_commands.md R96,
70_reset_and_hazards.md R163), every WAIT ends (R165), and the absorb phase (R91). -/

namespace Sys2Proof.Machine

/-! ### A host that waits before its commands -/

/-- A host that waits with a permutation possibly pending waits with none pending. -/
theorem waitsBeforeCommands_of_open {ops : List HostOp} (b : Bool) (h : waitsBeforeCommands b ops = true) :
    waitsBeforeCommands false ops = true := by
  induction ops with
  | nil => rfl
  | cons op ops ih =>
    cases op with
    | read => exact ih h
    | check => exact ih h
    | wait => exact h
    | reset => exact h
    | write off n v =>
      rw [waitsBeforeCommands] at h ⊢
      split at h
      · next hc =>
        rw [Bool.and_eq_true] at h
        rw [if_pos hc, h.2]
        rfl
      · next hc =>
        rw [if_neg hc]
        exact ih h

/-- Before a waiting host's CMD write nothing is pending, and a write that may issue a permutation opens the duty. -/
theorem waitsBeforeCommands_cmd {b : Bool} {off : BitVec 12} {v : BitVec 64} {rest : List HostOp}
    (hr : regionOf off = .cmd) (h : waitsBeforeCommands b (.write off .w4 v :: rest) = true) :
    b = false ∧ waitsBeforeCommands (startsPermutation (v.setWidth 32)) rest = true := by
  rw [waitsBeforeCommands, if_pos ⟨hr, rfl⟩, Bool.and_eq_true] at h
  exact ⟨by simpa using h.1, h.2⟩

theorem waitsBeforeCommands_write_inBuf {b : Bool} {off : BitVec 12} {n : Width} {v : BitVec 64}
    {rest : List HostOp} (hr : regionOf off = .inBuf) :
    waitsBeforeCommands b (.write off n v :: rest) = waitsBeforeCommands b rest := by
  rw [waitsBeforeCommands, if_neg (by simp [hr])]

/-- A CMD write leaves the host's queue. -/
theorem issue_queue {w : CmdWord} {s t : State} (h : issue w s = .next t) : t.queue = s.queue := by
  rcases issue_rejects_or_accepts h with ⟨e, rfl⟩ | ⟨-, i, -, -, rfl⟩
  · rw [cmdError_eq, State.setErr_queue]
  · obtain ⟨hqueue, -⟩ := commandEffect_hostSide i s
    exact hqueue

/-- From an idle engine, a CMD write that sets BUSY is one that may issue a permutation. -/
theorem issue_busy_of_idle {w : CmdWord} {s t : State} (hb : s.busy = false) (h : issue w s = .next t) :
    t.busy = false ∨ t.busy = startsPermutation w := by
  rcases issue_busy h with hsame | ⟨i, hd, ⟨len, rfl, -⟩ | rfl, ht⟩
  · exact .inl (hsame.trans hb)
  · exact .inr (by rw [ht, startsPermutation, hd])
  · exact .inr (by rw [ht, startsPermutation, hd])

/-- A CMD write on an idle engine leaves a host that waits, if the rest of its queue waits after this word. -/
theorem issue_waits {w : CmdWord} {s t : State} (hb : s.busy = false)
    (hw : waitsBeforeCommands (startsPermutation w) s.queue = true) (h : issue w s = .next t) :
    waitsBeforeCommands t.busy t.queue = true := by
  rw [issue_queue h]
  rcases issue_busy_of_idle hb h with ht | ht
  · rw [ht]; exact waitsBeforeCommands_of_open _ hw
  · rw [ht]; exact hw

/-- Code 5 belongs to the busy rejection alone (R141): no other error records it. -/
theorem cmdError_errCode_eq_five {e : CmdError} {s : State} (he : e ≠ .cmdWhileBusy)
    (h5 : (cmdError e s).errCode = 5) : s.errCode = 5 := by
  rw [cmdError_eq, State.setErr_errCode] at h5
  split at h5
  · exact h5
  · cases e with
    | cmdWhileBusy => exact absurd rfl he
    | illegalCmd | badRounds | badAbsorbLen | badExtractLen => exact absurd h5 (by decide)

theorem operandError_ne_cmdWhileBusy {i : Instr} {e : CmdError} (h : operandError i = some e) :
    e ≠ .cmdWhileBusy := by
  rcases operandError_some h with ⟨_, -, rfl⟩ | ⟨_, -, rfl⟩ | ⟨_, -, rfl⟩ <;> decide

/-- An idle engine records no code 5. -/
theorem issue_idle_errCode {w : CmdWord} {s t : State} (hb : s.busy = false) (h : issue w s = .next t)
    (h5 : t.errCode = 5) : s.errCode = 5 := by
  rcases issue_cases h with ⟨hbusy, -⟩ | ⟨-, -, rfl⟩ | ⟨-, i, e, -, he, rfl⟩ | ⟨-, i, -, -, rfl⟩
  · rw [hb] at hbusy; cases hbusy
  · exact cmdError_errCode_eq_five (by decide) h5
  · exact cmdError_errCode_eq_five (operandError_ne_cmdWhileBusy he) h5
  · cases i with
    | wipe | clrerr => exact absurd h5 (by simp [commandEffect, wipeEffect, clrerrEffect])
    | init | absorb | permute | extract =>
      rwa [(commandEffect_errorRecord (by simp) (by simp) s).2] at h5

/-- A host operation of a waiting host leaves a waiting host and records no code 5. -/
theorem perform_waits {op : HostOp} {s t : State} (h : waitsBeforeCommands s.busy (op :: s.queue) = true)
    (hp : perform op s = .next t) :
    waitsBeforeCommands t.busy t.queue = true ∧ (t.errCode = 5 → s.errCode = 5) := by
  rcases perform_cases hp with ⟨_, _, rfl, -, rfl⟩ | ⟨_, _, v, rfl, -, hr, rfl⟩ | ⟨_, v, rfl, -, hr, hi⟩ |
    ⟨rfl, rfl⟩ | ⟨rfl, -, rfl⟩ | ⟨rfl, rfl⟩
  · exact ⟨h, id⟩
  · rw [waitsBeforeCommands_write_inBuf hr] at h
    exact ⟨h, id⟩
  · obtain ⟨hb, hrest⟩ := waitsBeforeCommands_cmd hr h
    exact ⟨issue_waits hb hrest hi, issue_idle_errCode hb hi⟩
  · rw [busyOf_status]
    split
    · exact ⟨h, id⟩
    · next hb =>
      refine ⟨?_, id⟩
      rw [State.addReply_busy, Bool.eq_false_iff.2 hb]
      exact h
  · exact ⟨h, id⟩
  · exact ⟨h, fun h5 => absurd (show (0 : BitVec 4) = 5 from h5) (by decide)⟩

/-- Settles O43: the completion only clears BUSY, and the host's operation is `perform_waits`. -/
theorem waitingHostIsNeverRejectedAsBusy : Obligations.WaitingHostIsNeverRejectedAsBusy := by
  unfold Obligations.WaitingHostIsNeverRejectedAsBusy
  intro s t _ hw hs
  rcases step_cases hs with ⟨-, hc⟩ | ⟨-, -, rfl⟩ | ⟨-, op, rest, hq, hp⟩
  · obtain ⟨-, rfl⟩ := complete_cases hc
    exact ⟨waitsBeforeCommands_of_open _ hw, id⟩
  · exact ⟨hw, id⟩
  · rw [hq] at hw
    exact perform_waits (s := s.takeOp rest) hw hp

/-! ### A WAIT ends -/

/-- What a WAIT leaves (R165): the host at the operations after it, the engine idle with its pending permutation done,
and one STATUS value more; `d` and `r` are the model's delay and the earlier replies. -/
def State.afterWait (s : State) (rest : List HostOp) (d : Nat) (r : List ReadReply) (value : BitVec 64) : State :=
  { s with
    lanes := if s.pending then keccakP s.rounds.toNat s.lanes else s.lanes
    pending := false
    busy := false
    queue := rest
    delay := d
    replies := ⟨statusOffset, .w4, value⟩ :: r }

/-- One poll of a WAIT: it stays at the head of the queue while BUSY = 1 (R67). -/
theorem step_wait {s : State} {rest : List HostOp} (hm : engineMoves s = false) (hq : s.queue = .wait :: rest) :
    step s = .next (((s.takeOp rest).addReply ⟨statusOffset, .w4, readValue statusOffset .w4 s⟩).setQueue
      (if s.busy then .wait :: rest else rest)) := by
  have hb : busyOf (readValue statusOffset .w4 (s.takeOp rest)) = s.busy := busyOf_status _
  rw [step_host hm hq, perform, hb]
  split <;> rfl

/-- Bit 0 of a STATUS value is BUSY (R30). -/
theorem readValue_status_bit0 (s : State) : (readValue statusOffset .w4 s).getLsbD 0 = s.busy := by
  have hv : readValue statusOffset .w4 s = (status s).setWidth 64 := rfl
  rw [hv, BitVec.getLsbD_setWidth, getLsbD_status]
  simp

/-- With BUSY = PENDING = 0 a WAIT ends with its first poll. -/
theorem wait_idle {s : State} {rest : List HostOp} (hp : s.pending = false) (hb : s.busy = false)
    (hq : s.queue = .wait :: rest) :
    step s = .next (s.afterWait rest (s.delay - 1) s.replies (readValue statusOffset .w4 s)) := by
  rw [step_wait (engineMoves_of_not_pending hp) hq, hb]
  simp [State.afterWait, hp, State.takeOp, State.addReply, State.setQueue, hb]

/-- What the polls of a WAIT leave when the completion is due: the values read are in `r`. -/
def State.polled (s : State) (r : List ReadReply) : State := { s with delay := 0, replies := r }

theorem State.polled_self {s : State} (hd : s.delay = 0) : s.polled s.replies = s := by
  rw [State.polled, ← hd]

/-- After the polls and the completion an idle WAIT is left. -/
theorem afterWait_completed {s : State} (hp : s.pending = true) (r r' : List ReadReply) (rest : List HostOp) (d : Nat)
    (value : BitVec 64) :
    ((s.polled r).setLanes (keccakP s.rounds.toNat s.lanes)).endPermutation.afterWait rest d r' value =
      s.afterWait rest d r' value := by
  rw [State.afterWait, State.afterWait, hp]
  rfl

/-- While a permutation is pending a WAIT polls until the completion is due: by induction on the delay. -/
theorem run_polls {s : State} {rest : List HostOp} (hb : s.busy = true) (hq : s.queue = .wait :: rest) :
    ∃ r, core.run s.delay s = .next (s.polled r) := by
  induction hd : s.delay generalizing s with
  | zero => exact ⟨s.replies, congrArg _ (State.polled_self hd).symm⟩
  | succ d ih =>
    have hpoll := step_wait (engineMoves_of_delay hq (by omega)) hq
    rw [hb, if_pos rfl, ← hq] at hpoll
    obtain ⟨r, hrun⟩ := ih
      (s := ((s.takeOp rest).addReply ⟨statusOffset, .w4, readValue statusOffset .w4 s⟩).setQueue s.queue)
      hb hq (by rw [State.setQueue_delay, State.addReply_delay, State.takeOp_delay, hd, Nat.add_sub_cancel])
    exact ⟨r, (run_succ hpoll d).trans hrun⟩

/-- A WAIT ends within its delay, one completion and one poll (R165). -/
theorem wait_ends {s : State} {rest : List HostOp} (hr : s.rounds.toNat ≤ 24) (hb : s.busy = s.pending)
    (hq : s.queue = .wait :: rest) :
    ∃ n d r value, n ≤ s.delay + 2 ∧ core.run n s = .next (s.afterWait rest d r value) ∧
      value.getLsbD 0 = false := by
  cases hp : s.pending with
  | false =>
    rw [hp] at hb
    exact ⟨1, _, _, _, by omega, run_succ (wait_idle hp hb hq) 0, (readValue_status_bit0 s).trans hb⟩
  | true =>
    rw [hp] at hb
    obtain ⟨r, hpolls⟩ := run_polls hb hq
    have hdone := step_due (s := s.polled r) hp (.inl rfl) hr
    have hlast := wait_idle (s := ((s.polled r).setLanes (keccakP s.rounds.toNat s.lanes)).endPermutation) rfl rfl hq
    rw [afterWait_completed hp] at hlast
    exact ⟨s.delay + 2, _, _, _, le_rfl,
      (run_add hpolls 2).trans ((run_succ hdone 1).trans (run_succ hlast 0)), readValue_status_bit0 _⟩

theorem State.afterWait_replies (s : State) (rest : List HostOp) (d : Nat) (r : List ReadReply) (value : BitVec 64) :
    (s.afterWait rest d r value).replies = ⟨statusOffset, .w4, value⟩ :: r := rfl

theorem lastStatusRead_afterWait (s : State) (rest : List HostOp) (d : Nat) (r : List ReadReply)
    (value : BitVec 64) : lastStatusRead (s.afterWait rest d r value) = some value := by
  have hstatus : regionOf statusOffset = .status := by decide
  simp [lastStatusRead, State.afterWait_replies, hstatus]

/-- Settles O41: `wait_ends` for a state with the invariant, whose fields are read off. -/
theorem waitEnds : Obligations.WaitEnds := by
  unfold Obligations.WaitEnds
  intro s rest hinv hq
  obtain ⟨n, d, r, value, hn, hrun, hv⟩ := wait_ends hinv.rounds_le hinv.busy_eq hq
  exact ⟨n, _, hn, hrun, rfl, rfl, rfl, rfl, rfl, rfl, rfl, rfl, rfl, rfl, value,
    lastStatusRead_afterWait s rest d r value, hv⟩

/-! ### Runs -/

theorem run_fault {s : State} {r : Fault} (h : step s = .fault r) (n : Nat) : core.run (n + 1) s = .fault r := by
  have hs : core.step s = .fault r := h
  simp only [Host.Core.run, hs]

theorem run_refused {s : State} {r : Refusal} (h : step s = .refused r) (n : Nat) :
    core.run (n + 1) s = .refused r := by
  have hs : core.step s = .refused r := h
  simp only [Host.Core.run, hs]

/-- If a run answers a next state, so did its first step. -/
theorem run_succ_cases {n : Nat} {s t : State} (h : core.run (n + 1) s = .next t) :
    ∃ u, step s = .next u ∧ core.run n u = .next t := by
  cases hs : step s with
  | next u => rw [run_succ hs] at h; exact ⟨u, rfl, h⟩
  | fault r => rw [run_fault hs] at h; cases h
  | refused r => rw [run_refused hs] at h; cases h

/-- A run keeps the invariant. -/
theorem run_inv {n : Nat} {s t : State} (h : s.Inv) (hrun : core.run n s = .next t) : t.Inv := by
  induction n generalizing s with
  | zero => cases hrun; exact h
  | succ n ih =>
    obtain ⟨u, hs, hu⟩ := run_succ_cases hrun
    exact ih (step_inv h hs) hu

/-! ### The absorb phase -/

/-- A zero-extended byte on the bus is that byte (R44, R67). -/
theorem leBytes_setWidth (b : Byte) : leBytes (b.setWidth 64) 1 = [b] := by
  have hb : byteOf (b.setWidth 64) 0 = b := by
    apply BitVec.eq_of_getLsbD_eq
    intro k hk
    rw [getLsbD_byteOf, BitVec.getLsbD_setWidth]
    simp [hk, show k < 64 by omega]
  simpa [leBytes] using hb

/-- One `SB` of an idle engine stores its byte (R46). -/
theorem step_storeByte {s : State} {j : Nat} {b : Byte} {rest : List HostOp} (hp : s.pending = false) (hj : j < 200)
    (hq : s.queue = storeByte (BitVec.ofNat 12 j) (b.setWidth 64) :: rest) :
    step s = .next ((s.takeOp rest).setInBuf (s.inBuf.write j b)) := by
  have hoff : (BitVec.ofNat 12 j).toNat = j := (BitVec.toNat_ofNat ..).trans (Nat.mod_eq_of_lt (by omega))
  have hin : (BitVec.ofNat 12 j).toNat ≤ 0x0C7 := by omega
  have hmap : MapPermits (BitVec.ofNat 12 j).toNat Width.w1.bytes .write :=
    mapPermits_inBuf hin (Nat.mod_one _) .write
  rw [storeByte] at hq
  rw [step_write (engineMoves_of_not_pending hp) hq, busWrite_inBuf hmap (regionOf_inBuf hin), hoff, Width.bytes,
    leBytes_setWidth]
  rfl

/-- LOADBLK stores its bytes in a row (R67); an idle engine does nothing else meanwhile. -/
theorem run_loadBlkFrom {bytes : List Byte} {j : Nat} {s : State} {rest : List HostOp} (hp : s.pending = false)
    (hj : j + bytes.length ≤ 200) (hq : s.queue = loadBlkFrom j bytes ++ rest) :
    ∃ d, core.run bytes.length s =
      .next { s with inBuf := s.inBuf.writeBytes j bytes, queue := rest, delay := d } := by
  induction bytes generalizing j s with
  | nil =>
    obtain rfl : s.queue = rest := hq
    exact ⟨s.delay, rfl⟩
  | cons b bytes ih =>
    rw [List.length_cons] at hj ⊢
    have hstore := step_storeByte hp (by omega) hq
    obtain ⟨d, hrun⟩ := ih (j := j + 1)
      (s := (s.takeOp (loadBlkFrom (j + 1) bytes ++ rest)).setInBuf (s.inBuf.write j b)) hp (by omega) rfl
    exact ⟨d, (run_succ hstore _).trans hrun⟩

/-- The command word of a host's CMD write is the encoding of the command (R67). -/
theorem step_command {i : Instr} {s : State} {rest : List HostOp} (hi : i.WellFormed) (hp : s.pending = false)
    (hq : s.queue = command i :: rest) : step s = exec i (s.takeOp rest) := by
  have hword : ((encode i).setWidth 64).setWidth 32 = encode i := by
    rw [BitVec.setWidth_setWidth_of_le _ (by decide), BitVec.setWidth_eq]
  rw [step_cmd (engineMoves_of_not_pending hp) hq, hword, issue_ok (decode_encode hi)]

/-- A block loaded into a canonical IN_BUF is XORed as `pad(B)` (R82, R91). -/
theorem absorbBlock_loaded {bytes : List Byte} {m : Memory} (h8 : bytes.length % 8 = 0) (hlen : bytes.length ≤ 200)
    (hm : m.wf = true) (A : Lanes) :
    absorbBlock bytes.length (m.writeBytes 0 bytes) A = xorLanes A (padLanes bytes) := by
  apply lanes_ext
  intro i hi
  apply BitVec.eq_of_getLsbD_eq
  intro j hj
  have hread : ∀ k < bytes.length, (m.writeBytes 0 bytes).read k = bytes.getD k 0 := by
    intro k hk
    rw [Memory.read_writeBytes hm (by simpa [bufBytes] using hlen), if_pos (by omega), Nat.sub_zero]
  have hpad : ((bytes.drop (8 * i)).take 8).getD (j / 8) 0 = bytes.getD (8 * i + j / 8) 0 := by
    rw [List.getD_eq_getElem?_getD, List.getD_eq_getElem?_getD, List.getElem?_take_of_lt (by omega),
      List.getElem?_drop]
  rw [getLsbD_absorbBlock h8 hi hj, xorLanes, laneOf_lanesOf_lt hi, padLanes, laneOf_lanesOf_lt hi,
    BitVec.getLsbD_xor, getLsbD_leValue, hpad, decide_eq_true hj, Bool.true_and]
  by_cases hin : 8 * i + j / 8 < bytes.length
  · rw [hread _ hin, decide_eq_true hin, Bool.true_and]
  · rw [decide_eq_false hin, Bool.false_and, List.getD_eq_default _ _ (Nat.not_lt.1 hin)]
    simp

/-- What the absorb phase says of the state it reaches: the host's next operations, an idle engine, its lanes, and
that ROUNDS, OUT_BUF and the error record are as before. -/
def Absorbed (s : State) (rest : List HostOp) (A : Lanes) (t : State) : Prop :=
  t.queue = rest ∧ t.busy = false ∧ t.lanes = A ∧ t.rounds = s.rounds ∧ t.outBuf = s.outBuf ∧ t.err = s.err ∧
    t.errCode = s.errCode

theorem absorbed_afterWait {s : State} (hp : s.pending = true) (rest : List HostOp) (d : Nat) (r : List ReadReply)
    (value : BitVec 64) : Absorbed s rest (keccakP s.rounds.toNat s.lanes) (s.afterWait rest d r value) :=
  ⟨rfl, rfl, if_pos hp, rfl, rfl, rfl, rfl⟩

/-- ABSORBW of a loaded IN_BUF: the block is XORed into the lanes, which are then permuted (R82, R84). -/
theorem run_absorbW {r : Nat} {s : State} {rest : List HostOp} (h8 : r % 8 = 0) (hr : r ≤ 200)
    (hrounds : s.rounds.toNat ≤ 24) (hb : s.busy = false) (hp : s.pending = false)
    (hq : s.queue = absorbW r ++ rest) :
    ∃ n t, core.run n s = .next t ∧
      Absorbed s rest (keccakP s.rounds.toNat (absorbBlock r s.inBuf s.lanes)) t := by
  have hissue : step s = .next (absorbEffect r (s.takeOp (.wait :: rest))) :=
    (step_command (i := .absorb r) (decide_eq_true (by omega)) hp hq).trans
      (exec_ok hb (absorbError_eq_none.2 ⟨h8, hr⟩))
  obtain ⟨n, d, replies, value, -, hrun, -⟩ :=
    wait_ends (s := absorbEffect r (s.takeOp (.wait :: rest)))
      (by simpa [absorbEffect] using hrounds) rfl rfl
  refine ⟨n + 1, _, (run_succ hissue n).trans hrun, ?_⟩
  simpa [Absorbed, absorbEffect] using
    absorbed_afterWait (s := absorbEffect r (s.takeOp (.wait :: rest))) rfl rest d replies value

/-- One block of the absorb phase: S_j = KeccakP(nr, S_(j-1) ^ pad(B_j)) (R91). -/
theorem run_block {r : Nat} {B : List Byte} {s : State} {rest : List HostOp} (h8 : r % 8 = 0) (hr : r ≤ 200)
    (hB : B.length = r) (hinv : s.Inv) (hb : s.busy = false) (hq : s.queue = loadBlk B ++ (absorbW r ++ rest)) :
    ∃ n t, core.run n s = .next t ∧
      Absorbed s rest (keccakP s.rounds.toNat (xorLanes s.lanes (padLanes B))) t := by
  subst hB
  have hp : s.pending = false := hinv.busy_eq.symm.trans hb
  obtain ⟨d, hload⟩ := run_loadBlkFrom hp (by omega) hq
  obtain ⟨n, t, hrun, ht⟩ := run_absorbW
    (s := { s with inBuf := s.inBuf.writeBytes 0 B, queue := absorbW B.length ++ rest, delay := d })
    h8 hr hinv.rounds_le hb hp rfl
  refine ⟨B.length + n, t, (run_add hload n).trans hrun, ?_⟩
  rw [← absorbBlock_loaded h8 hr hinv.inBuf_wf]
  exact ht

/-- Settles O42: by induction on the blocks, each of which is `run_block`, in a state that keeps the invariant by
`run_inv`. -/
theorem absorbPhaseComputesTheRecurrence : Obligations.AbsorbPhaseComputesTheRecurrence := by
  unfold Obligations.AbsorbPhaseComputesTheRecurrence
  intro r blocks s rest h8 hr hblocks hinv hb hq
  induction blocks generalizing s with
  | nil => exact ⟨0, s, rfl, hq, hb, rfl, rfl, rfl, rfl, rfl⟩
  | cons B blocks ih =>
    obtain ⟨hB, hblocks⟩ := List.forall_mem_cons.1 hblocks
    rw [List.flatMap_cons, List.append_assoc, List.append_assoc] at hq
    obtain ⟨m, u, hrun, huq, hub, hulanes, hurounds, huout, huerr, hucode⟩ :=
      run_block h8 hr hB hinv hb hq
    obtain ⟨n, t, hrest, htq, htb, htlanes, htrounds, htout, hterr, htcode⟩ :=
      ih u hblocks (run_inv hinv hrun) hub huq
    refine ⟨m + n, t, (run_add hrun n).trans hrest, htq, htb, ?_, htrounds.trans hurounds, htout.trans huout,
      hterr.trans huerr, htcode.trans hucode⟩
    rw [htlanes, hurounds, hulanes, List.foldl_cons]

end Sys2Proof.Machine
end
